-- ==== Sys2Proof/Word.lean ====
section
/-!
DEFINITION. The word types of the core: bytes, the 64-bit datapath word (00_scope.md R7), the 32-bit bus word
(20_memory.md R52), and the two word widths W of the variants (00_scope.md R6).
-/

namespace Sys2Proof

/-- A byte of a buffer or of a byte sequence (R8). -/
abbrev Byte := BitVec 8

/-- The storage of one datapath word: 64 bits, of which a W = 32 variant uses bits [31:0] (R7). -/
abbrev Word := BitVec 64

/-- A value on the host data bus, and every host register (R7, 10_state.md section 3). -/
abbrev BusWord := BitVec 32

/-- The word width W of a variant, and the select `WSEL` of the round function (R6, R120). -/
inductive Width where
  | w32
  | w64
deriving DecidableEq, Repr

/-- W, in bits. -/
def Width.bits : Width → Nat
  | .w32 => 32
  | .w64 => 64

/-- n = W / 8, the bytes per word (40_variant_table.md R112). -/
def Width.bytes : Width → Nat
  | .w32 => 4
  | .w64 => 8

/-- A block: the pair (x, y), x the higher-addressed half (20_memory.md R59). -/
structure Block where
  x : Word
  y : Word
deriving DecidableEq, Repr

/-- One row of the variant table: (W, m, T, B) (40_variant_table.md R110). -/
structure VariantRow where
  width : Width
  keyWords : Nat
  rounds : Nat
  blockBytes : Nat
deriving DecidableEq, Repr

end Sys2Proof
end

