-- ==== Sys2Proof/Config.lean ====
section
/-!
DEFINITION. What an implementation fixes (the capacity IBUF_BYTES) and the free values: what the spec leaves
unspecified (93_implementation_defined.md U1, U4, U7). A free value has no body, so no proof can learn it.
-/

namespace Sys2Proof.Config

/-- The reference value of the model argument `IBUF_BYTES` (00_scope.md R7). It only sets `BUFCAP` at reset;
every operation reads the capacity from `BUFCAP`. DESIGN CHOICE, log 4. -/
def ibufBytes : BitVec 32 := 4096#32

/-- What `IBUF_BYTES` may be: a multiple of 16 from 32 to 65520 (00_scope.md R7). -/
abbrev CapLegal (cap : Nat) : Prop := cap % 16 = 0 ∧ 32 ≤ cap ∧ cap ≤ 65520

/-- The byte drawn at reset number `epoch` for the buffer byte at window offset `off`; it is read until the
byte is written (U1). Log 5. -/
opaque unwrittenByte (epoch off : Nat) : Byte

/-- `RK[i]` after reset number `epoch`, before any CONSTRUCT (10_state.md R37, U1). Log 6. -/
opaque powerOnRk (epoch i : Nat) : Word

/-- `RK[i]` for i ≥ T after key expansion, draw number `draw` (10_state.md R22, U4). Log 6. -/
opaque freeRk (draw i : Nat) : Word

/-- A free 64-bit working register, draw number `draw` (10_state.md R24, U7). Log 7. -/
opaque freeWord (draw slot : Nat) : Word

/-- A free byte, draw number `draw`: `PREV` between commands (U7, log 7), and the bytes of an operand or a
result that the spec does not state (log 10). -/
opaque freeByte (draw slot : Nat) : Byte

/-- A free round index (10_state.md R24 gives its range, 0 to 33). Log 9. -/
opaque freeRoundIndex (draw : Nat) : Fin 34

/-- A free block index. DEDUCED range 0 to 8190: a buffer has at most 65520 bytes, and with one PKCS7 block
at most 8191 blocks of 8 bytes. Logs 9 and 17. -/
opaque freeBlockIndex (draw : Nat) : Fin 8191

/-- A free tap index (at most three taps, 42_key_scheduler.md R141). Log 9. -/
opaque freeTapIndex (draw : Nat) : Fin 3

end Sys2Proof.Config
end

