-- ==== Sys2Proof/Syntax.lean ====
section
/-!
DEFINITION. The instructions: one constructor per row of spec/opcode_table.json, with the fields its encoding
holds (30_encoding.md R80, R89). Operands that the code does not hold (the byte operand of a command, the ports
of an internal operation) come from State (R87, R89).
-/

namespace Sys2Proof

/-- The padding choice `PAD`; with one bit every value is recognised (30_encoding.md R84). -/
inductive Padding where
  | none
  | pkcs7
deriving DecidableEq, Repr

/-- The seventeen rows. `var` and `mode` are the codes undecoded, as R86 passes them. -/
inductive Instr where
  /-- CONSTRUCT, VAR = `var` (46_dispatcher.md R222). -/
  | construct (var : Nat)
  /-- ENCRYPT, MODE = `mode` (R223). -/
  | encrypt (mode : Nat) (pad : Padding)
  /-- DECRYPT, MODE = `mode` (R224). -/
  | decrypt (mode : Nat) (pad : Padding)
  /-- VT_LOOKUP (40_variant_table.md R111). -/
  | vtLookup
  /-- RF_ENC with WSEL (41_round_function.md R121). -/
  | rfEnc (wsel : Width)
  /-- RF_DEC with WSEL (R122). -/
  | rfDec (wsel : Width)
  /-- KS_EXPAND (42_key_scheduler.md R142). -/
  | ksExpand
  /-- BE_ENC (43_block_engine.md R160). -/
  | beEnc
  /-- BE_DEC (R161). -/
  | beDec
  /-- ECB_ENC (44_mode_drivers.md R181). -/
  | ecbEnc
  /-- ECB_DEC (R182). -/
  | ecbDec
  /-- CBC_ENC (R183). -/
  | cbcEnc
  /-- CBC_DEC (R184). -/
  | cbcDec
  /-- PAD (45_padding.md R200). -/
  | pad
  /-- UNPAD (R201). -/
  | unpad
  /-- BLK_DECODE (20_memory.md R59). -/
  | blkDecode
  /-- BLK_ENCODE (R60). -/
  | blkEncode
deriving DecidableEq, Repr

/-- An encoded instruction: a command word of format CMD (R80) or an internal select code of format UOP
(R89). Neither has another length (R88). -/
inductive Code where
  | cmd32 (c : BitVec 32)
  | uop8 (u : BitVec 8)
deriving DecidableEq, Repr

end Sys2Proof
end

