-- ==== Sys2Proof/Machine/State.lean ====
section
/-!
DEFINITION. The state of the core as plain data (10_state.md), the inputs the host has still to give, the reasons
a step can end without a next state, and the state after reset (10_state.md R37, 70_reset_and_hazards.md R280).
-/

namespace Sys2Proof.Machine

/-- The status codes of `STATUS.ERR` (60_exceptions.md R250); the codes 9 to 15 are never produced, so they
have no name. -/
inductive ErrCode where
  | ok
  | invalidKeyLength
  | unalignedInput
  | unimplementedMode
  | unimplementedVariant
  | noKey
  | illegalCommand
  | lengthOverflow
  | emptyUnpad
deriving DecidableEq, Repr

/-- What the outside world does to the core (20_memory.md R50, 70_reset_and_hazards.md R280). `width` is in
bits; R52 allows only 32. The data of a write of another width is not kept: it has no step. -/
inductive HostInput where
  /-- HOST_RD32(off) when `width` is 32. -/
  | read (width off : Nat)
  /-- HOST_WR32(off, v) when `width` is 32. -/
  | write (width off : Nat) (v : BusWord)
  /-- `rst` is asserted. -/
  | rst
deriving DecidableEq, Repr

/-- Buffer bytes that have been written, by window offset, in strictly rising order (log 5). A byte that is not
listed has not been written since reset. -/
abbrev Memory := List Host.Cell

/-- The datapath working registers (10_state.md R24). -/
structure Work where
  x : Word
  y : Word
  prev : Vector Byte 16
  a : Word
  tap : Vector Word 3
  roundIndex : Fin 34
  blockIndex : Fin 8191
  tapIndex : Fin 3
deriving DecidableEq, Repr

/-- The operand and result lines of the internal operations: the ports of 41_round_function.md R120 and the
operands of 30_encoding.md R89. The model's own; no command reads or writes them (log 8). -/
structure Ports where
  /-- the tag operand of VT_LOOKUP and KS_EXPAND -/
  tag : BitVec 3
  /-- `X_I` -/
  xIn : Word
  /-- `Y_I` -/
  yIn : Word
  /-- `K_I` -/
  kIn : Word
  /-- the operand W of BLK_DECODE and BLK_ENCODE -/
  width : Width
  /-- the operand off of BLK_DECODE -/
  off : Nat
  /-- the byte-sequence operand: kb, buf, data or s -/
  bytesIn : List Byte
  /-- `X_O` -/
  xOut : Word
  /-- `Y_O` -/
  yOut : Word
  /-- the row VT_LOOKUP returned -/
  row : Option VariantRow
  /-- the byte-sequence result -/
  bytesOut : List Byte
deriving DecidableEq, Repr

/-- The machine. -/
structure State where
  /-- `CMD` (R28) -/
  cmd : BusWord
  /-- `STATUS.ERR` (R29) -/
  err : ErrCode
  /-- `KEY_VALID` (R23) -/
  keyValid : Bool
  /-- `VARIANT` (R23) -/
  variant : BitVec 3
  /-- `ILEN` (R30) -/
  ilen : BusWord
  /-- `OLEN` (R31) -/
  olen : BusWord
  /-- `BUFCAP`, which holds `IBUF_BYTES` (R32); no step writes it (log 4) -/
  bufcap : BusWord
  /-- `RK` (R22) -/
  rk : Vector Word 34
  /-- `IBUF` (R33) and `OBUF` (R34), by window offset (20_memory.md R51) -/
  mem : Memory
  /-- the working registers (R24) -/
  work : Work
  /-- the select lines `UOP`; `none` while no internal operation is selected (30_encoding.md R89, log 8) -/
  uop : Option (BitVec 8)
  /-- the ports of the sub-blocks (log 8) -/
  ports : Ports
  /-- the inputs the host has still to give, the next one first (log 1) -/
  host : List HostInput
  /-- the values reads returned to the host, the latest first (log 2) -/
  hostReads : List BusWord
  /-- the code of every command that ended, the latest first (60_exceptions.md R256, U6, log 3) -/
  errLog : List ErrCode
  /-- how many times `rst` was asserted (log 13) -/
  epoch : Nat
  /-- how many free values were drawn (log 7) -/
  draws : Nat
deriving DecidableEq, Repr

/-- No fault: a failed command reports its code in `STATUS.ERR` and the core goes on (60_exceptions.md R251),
so nothing raises a fault. Safe: there is no value of this type to claim anything about. -/
inductive Fault where
deriving DecidableEq, Repr

/-- Why a step has no next state. -/
inductive Refusal where
  /-- Raised by exec for an instruction without a meaning. No arm raises it. Safe: the model stops. -/
  | notModelled (mnemonic : String)
  /-- Raised by a host access of a width other than 32 bits or at an offset not a multiple of 4: "The model
  gives it no step: it is refused" (20_memory.md R52, U2, log 14). Safe: the model stops. -/
  | outsideHostContract
  /-- Raised by a UOP code that 30_encoding.md R89 leaves unused: the dispatcher never produces one, and no
  host input sets the select lines (log 11). Safe: the model stops. -/
  | unusedUop
deriving DecidableEq, Repr

/-- Working registers holding any values: draw number `draw` (U7, log 7). -/
def Work.free (draw : Nat) : Work where
  x := Config.freeWord draw 0
  y := Config.freeWord draw 1
  prev := Vector.ofFn fun i => Config.freeByte draw i
  a := Config.freeWord draw 2
  tap := Vector.ofFn fun i => Config.freeWord draw (3 + i)
  roundIndex := Config.freeRoundIndex draw
  blockIndex := Config.freeBlockIndex draw
  tapIndex := Config.freeTapIndex draw

/-- Ports that nothing has driven (log 8). -/
def Ports.idle : Ports where
  tag := 0#3
  xIn := 0#64
  yIn := 0#64
  kIn := 0#64
  width := .w32
  off := 0
  bytesIn := []
  xOut := 0#64
  yOut := 0#64
  row := none
  bytesOut := []

/-- The state `rst` leaves in a core of capacity `cap` (10_state.md R37): reset number `epoch`, the working
registers drawn as draw number `draws`. -/
def State.powerOn (cap : BusWord) (epoch draws : Nat) : State where
  cmd := 0#32
  err := .ok
  keyValid := false
  variant := 0#3
  ilen := 0#32
  olen := 0#32
  bufcap := cap
  rk := Vector.ofFn fun i => Config.powerOnRk epoch i
  mem := []
  work := Work.free draws
  uop := none
  ports := Ports.idle
  host := []
  hostReads := []
  errLog := []
  epoch := epoch
  draws := draws + 1

/-- The machine right after its first reset, with the reference capacity (10_state.md R37, 00_scope.md R7). -/
def State.reset : State := State.powerOn Config.ibufBytes 0 0

end Sys2Proof.Machine
end

