-- ==== Sys2Proof/Machine/Flags.lean ====
section
/-!
DEFINITION. The core has no condition flags (10_state.md R27). Its outcome indicator is `STATUS` (R29): the status
code numbers (60_exceptions.md R250) and the composed status word.
-/

namespace Sys2Proof.Machine

/-- The number of a status code (R250). -/
def ErrCode.code : ErrCode → BitVec 4
  | .ok => 0#4
  | .invalidKeyLength => 1#4
  | .unalignedInput => 2#4
  | .unimplementedMode => 3#4
  | .unimplementedVariant => 4#4
  | .noKey => 5#4
  | .illegalCommand => 6#4
  | .lengthOverflow => 7#4
  | .emptyUnpad => 8#4

/-- `STATUS.VARIANT`: 0 while no cipher object exists (R29, D38). -/
def State.statusVariant (s : State) : BitVec 3 := if s.keyValid then s.variant else 0#3

/-- `STATUS`: ERR in [3:0], KEY_VALID in [8], VARIANT in [14:12], every other bit hardwired to 0 (R29). -/
def State.statusWord (s : State) : BusWord :=
  s.err.code.setWidth 32 ||| ((BitVec.ofBool s.keyValid).setWidth 32 <<< 8)
    ||| (s.statusVariant.setWidth 32 <<< 12)

end Sys2Proof.Machine
end

