-- ==== Sys2Proof/Machine/Operands.lean ====
section
/-!
DEFINITION. Operand forms: byte sequences as little-endian words (00_scope.md R10), key words (20_memory.md R58),
blocks (R59, R60), bus lanes (R53), the blocks of a buffer (R62), and operand bytes that no line drives (log 10).
-/

namespace Sys2Proof.Machine

/-- `LE(s)`: the value of a byte sequence, least significant byte first (R10). -/
def le : List Byte → Nat
  | [] => 0
  | b :: bs => b.toNat + 256 * le bs

/-- `toLE_n(v)`: the n-byte sequence of v mod 2^(8n) (R10). -/
def toLE : Nat → Nat → List Byte
  | 0, _ => []
  | n + 1, v => BitVec.ofNat 8 v :: toLE n (v / 256)

/-- The W-bit word at byte offset `off`, zero-extended to the datapath word (R58, R59, D25). -/
def wordAt (w : Width) (s : List Byte) (off : Nat) : Word :=
  BitVec.ofNat 64 (le ((s.drop off).take w.bytes))

/-- The m key words of the key bytes, K[0] at the lowest address (R58). -/
def keyWordsOf (row : VariantRow) (kb : List Byte) : List Word :=
  (List.range row.keyWords).map fun j => wordAt row.width kb (j * row.width.bytes)

/-- `KL = m · n`, the key length (40_variant_table.md R112). -/
def keyLength (row : VariantRow) : Nat := row.keyWords * row.width.bytes

/-- `BLK_DECODE(s, off, W)`: y is the lower-addressed half, x the higher-addressed (R59, 90_conflicts.md C2). -/
def blockAt (w : Width) (s : List Byte) (off : Nat) : Block where
  x := wordAt w s (off + w.bytes)
  y := wordAt w s off

/-- `BLK_ENCODE(x, y, W)` (R60). -/
def blockBytesOf (w : Width) (b : Block) : List Byte :=
  toLE w.bytes b.y.toNat ++ toLE w.bytes b.x.toNat

/-- Bytewise exclusive or of two byte sequences (44_mode_drivers.md R185). -/
def xorBytes (s t : List Byte) : List Byte := List.zipWith (· ^^^ ·) s t

/-- The first `count` blocks of a buffer; block k is bytes [k·B, (k+1)·B) (R62). -/
def blocksOf (B : Nat) : Nat → List Byte → List (List Byte)
  | 0, _ => []
  | count + 1, s => s.take B :: blocksOf B count (s.drop B)

/-- The last `n` bytes of a byte sequence. -/
def lastBytes (n : Nat) (s : List Byte) : List Byte := s.drop (s.length - n)

/-- `n` free bytes of draw number `draw` (log 10). -/
def freeBytes (draw n : Nat) : List Byte := (List.range n).map fun i => Config.freeByte draw i

/-- A byte operand of which `n` bytes are read: bytes that no line drives are free (log 10). -/
def driven (draw n : Nat) (s : List Byte) : List Byte := s ++ freeBytes draw (n - s.length)

/-- Byte lane t of a bus word: bits [8t+7 : 8t] (R53). -/
def lane (v : BusWord) (t : Nat) : Byte := v.extractLsb' (8 * t) 8

/-- The four bytes of a bus word, byte j first (R53). -/
def lanes (v : BusWord) : List Byte := [lane v 0, lane v 1, lane v 2, lane v 3]

/-- The bus word of four bytes (R53). -/
def busWordOf (s : List Byte) : BusWord := BitVec.ofNat 32 (le s)

end Sys2Proof.Machine
end

