-- ==== Sys2Proof/Machine/Ops.lean ====
section
/-!
DEFINITION. The named operations over memory and registers: reading and writing buffer bytes (20_memory.md R51,
R55 to R57), how a command ends (46_dispatcher.md R221, 60_exceptions.md R252), and the working registers.
-/

namespace Sys2Proof.Machine

/-! ### Memory -/

/-- The byte written last at `a`, if one was written since reset. -/
def Memory.lookup : Memory → Nat → Option Byte
  | [], _ => none
  | (b, v) :: rest, a => if a = b then some v else Memory.lookup rest a

/-- Write one byte; the list stays strictly rising. -/
def Memory.write : Memory → Nat → Byte → Memory
  | [], a, v => [(a, v)]
  | (b, u) :: rest, a, v =>
    if a < b then (a, v) :: (b, u) :: rest
    else if a = b then (a, v) :: rest
    else (b, u) :: Memory.write rest a v

/-- Write bytes from `a` upwards. -/
def Memory.writeBytes : Memory → Nat → List Byte → Memory
  | m, _, [] => m
  | m, a, v :: vs => Memory.writeBytes (Memory.write m a v) (a + 1) vs

/-- The canonical form: addresses strictly rise. No entry can be redundant, since at this level an unlisted
address holds no value (log 5). -/
abbrev Memory.Wf (m : Memory) : Prop := (m.map Prod.fst).Pairwise (· < ·)

/-- `Memory.Wf` as a Bool. -/
def Memory.wf (m : Memory) : Bool := decide (Memory.Wf m)

/-- `IBUF_BYTES` (00_scope.md R7, 10_state.md R32). -/
def State.ibufBytes (s : State) : Nat := s.bufcap.toNat

/-- `OBUF_BYTES = IBUF_BYTES + 16` (R7, R34). -/
def State.obufBytes (s : State) : Nat := s.ibufBytes + 16

/-- The window offset of `IBUF[0]` (20_memory.md R51). -/
def ibufBase : Nat := 0x10000

/-- The window offset of `OBUF[0]` (R51). -/
def obufBase : Nat := 0x20000

/-- The buffer byte at a window offset: the byte written last, else the byte drawn at reset (U1, log 5). -/
def State.byteAt (s : State) (off : Nat) : Byte :=
  (Memory.lookup s.mem off).getD (Config.unwrittenByte s.epoch off)

/-- `n` buffer bytes from a window offset upwards. -/
def State.bytesAt (s : State) (off n : Nat) : List Byte := (List.range n).map fun i => s.byteAt (off + i)

/-- `MemRead(addr, n)`: IBUF[addr .. addr+n) (R57). -/
def State.memRead (s : State) (addr n : Nat) : List Byte := s.bytesAt (ibufBase + addr) n

/-- `MemWrite(addr, len v, v)`: OBUF[addr .. addr + len v) gets v (R57). -/
def State.memWrite (s : State) (addr : Nat) (v : List Byte) : State :=
  { s with mem := Memory.writeBytes s.mem (obufBase + addr) v }

/-- The operand of every command: IBUF[0 .. ILEN) (30_encoding.md R87). -/
def State.operand (s : State) : List Byte := s.memRead 0 s.ilen.toNat

/-! ### How a command ends -/

/-- `fail(code)`, which is what `raise` does (R11, R221, R252): ERR gets the code and OLEN gets 0, and nothing
else changes. The error history gets the code too (U6, log 3). There is no return from it: no state is saved and
control goes nowhere (60_exceptions.md R255, R256). -/
def fail (code : ErrCode) (s : State) : State :=
  { s with err := code, olen := 0#32, errLog := code :: s.errLog }

/-- `succeed(olen)` (R221). -/
def succeed (olen : Nat) (s : State) : State :=
  { s with err := .ok, olen := BitVec.ofNat 32 olen, errLog := .ok :: s.errLog }

/-! ### Registers -/

/-- `RK[0 .. T)` (10_state.md R22). -/
def State.roundKeys (s : State) (rounds : Nat) : List Word := s.rk.toList.take rounds

/-- The round-key file holding a schedule: entry i is rk[i], and the entries from T on hold any value
(R22, U4, log 6). -/
def rkFileOf (schedule : List Word) (draw : Nat) : Vector Word 34 :=
  Vector.ofFn fun i => (schedule[i.val]?).getD (Config.freeRk draw i.val)

/-- The working registers hold no value from one command to the next (R24, U7, log 7). -/
def State.releaseWork (s : State) : State :=
  { s with work := Work.free s.draws, draws := s.draws + 1 }

/-- The index counters after a loop: any value in range (R24, log 9). -/
def State.releaseCounters (s : State) : State :=
  { s with
    work := { s.work with
      roundIndex := Config.freeRoundIndex s.draws
      blockIndex := Config.freeBlockIndex s.draws
      tapIndex := Config.freeTapIndex s.draws }
    draws := s.draws + 1 }

/-- Bytes [0 .. len v) of `PREV` get v (44_mode_drivers.md R183, R184). The others are not significant (R24), and the
spec does not say what a CBC driver leaves in them: that they keep their old values is DESIGN CHOICE, log 18. -/
def prevHolding (v : List Byte) (old : Vector Byte 16) : Vector Byte 16 :=
  Vector.ofFn fun i => (v[i.val]?).getD old[i]

/-- `TAP[0 .. len v)` get v; a variant with fewer taps leaves the others. -/
def tapsHolding (v : List Word) (old : Vector Word 3) : Vector Word 3 :=
  Vector.ofFn fun i => (v[i.val]?).getD old[i]

end Sys2Proof.Machine
end

