-- ==== Sys2Proof/Machine/Round.lean ====
section
/-!
DEFINITION. The round function (41_round_function.md): one definition over the word width, the 64-bit datapath
around it (R126), and RF_ENC and RF_DEC on the ports of R120.
-/

namespace Sys2Proof.Machine

/-- `ror_W(v, r)` (00_scope.md R9). -/
def ror {w : Nat} (v : BitVec w) (r : Nat) : BitVec w := (v >>> r) ||| (v <<< (w - r))

/-- `rol_W(v, r)` (R9). -/
def rol {w : Nat} (v : BitVec w) (r : Nat) : BitVec w := (v <<< r) ||| (v >>> (w - r))

/-- α, the rotation of x, for both widths (R123, 90_conflicts.md C1). -/
def alpha : Nat := 8

/-- β, the rotation of y, for both widths (R123). -/
def beta : Nat := 3

/-- The encrypt round on W-bit words, line by line (R121). -/
def rfEncWord {w : Nat} (x y k : BitVec w) : BitVec w × BitVec w :=
  let x := ror x alpha
  let x := x + y
  let x := x ^^^ k
  let y := rol y beta
  let y := y ^^^ x
  (x, y)

/-- The decrypt round on W-bit words, line by line (R122). -/
def rfDecWord {w : Nat} (x y k : BitVec w) : BitVec w × BitVec w :=
  let y := y ^^^ x
  let y := ror y beta
  let x := x ^^^ k
  let x := x - y
  let x := rol x alpha
  (x, y)

/-- A round on the 64-bit datapath: W = 32 reads bits [31:0] and zero-extends the outputs (R126). -/
def onDatapath (round32 : BitVec 32 → BitVec 32 → BitVec 32 → BitVec 32 × BitVec 32)
    (round64 : BitVec 64 → BitVec 64 → BitVec 64 → BitVec 64 × BitVec 64)
    (w : Width) (b : Block) (k : Word) : Block :=
  match w with
  | .w32 =>
    let r := round32 (b.x.setWidth 32) (b.y.setWidth 32) (k.setWidth 32)
    ⟨r.1.setWidth 64, r.2.setWidth 64⟩
  | .w64 =>
    let r := round64 b.x b.y k
    ⟨r.1, r.2⟩

/-- RF_ENC on the datapath (R121, R126). -/
def rfEnc (w : Width) (b : Block) (k : Word) : Block := onDatapath rfEncWord rfEncWord w b k

/-- RF_DEC on the datapath (R122, R126). -/
def rfDec (w : Width) (b : Block) (k : Word) : Block := onDatapath rfDecWord rfDecWord w b k

/-- The block on `X_I`, `Y_I` (R120). -/
def State.blockIn (s : State) : Block := ⟨s.ports.xIn, s.ports.yIn⟩

/-- Drive `X_O`, `Y_O` (R120). -/
def State.driveBlock (s : State) (b : Block) : State :=
  { s with ports := { s.ports with xOut := b.x, yOut := b.y } }

/-- RF_ENC (R121): a combinational block, so only the output ports change (R120). -/
def execRfEnc (wsel : Width) (s : State) : Host.Outcome State Fault Refusal :=
  .next (s.driveBlock (rfEnc wsel s.blockIn s.ports.kIn))

/-- RF_DEC (R122). -/
def execRfDec (wsel : Width) (s : State) : Host.Outcome State Fault Refusal :=
  .next (s.driveBlock (rfDec wsel s.blockIn s.ports.kIn))

end Sys2Proof.Machine
end

