-- ==== Sys2Proof/Machine/Codec.lean ====
section
/-!
DEFINITION. The block codec (20_memory.md R59, R60): BLK_DECODE and BLK_ENCODE on the lines.
-/

namespace Sys2Proof.Machine

/-- BLK_DECODE(s, off, W) (R59). Callers guarantee off + B ≤ len(s); bytes no line drives are free (log 10). -/
def execBlkDecode (s : State) : Host.Outcome State Fault Refusal :=
  let w := s.ports.width
  let bytes := driven s.draws (s.ports.off + 2 * w.bytes) s.ports.bytesIn
  .next { s.driveBlock (blockAt w bytes s.ports.off) with draws := s.draws + 1 }

/-- BLK_ENCODE(x, y, W) (R60). -/
def execBlkEncode (s : State) : Host.Outcome State Fault Refusal :=
  .next { s with ports := { s.ports with bytesOut := blockBytesOf s.ports.width s.blockIn } }

end Sys2Proof.Machine
end

