-- ==== Sys2Proof/Machine/Variant.lean ====
section
/-!
DEFINITION. The variant table (40_variant_table.md) and VT_LOOKUP.
-/

namespace Sys2Proof.Machine

/-- The rows of R110 by tag; a tag above 4 has no row (R111, R113). -/
def vtLookup : Nat → Option VariantRow
  | 0 => some ⟨.w32, 3, 26, 8⟩
  | 1 => some ⟨.w32, 4, 27, 8⟩
  | 2 => some ⟨.w64, 2, 32, 16⟩
  | 3 => some ⟨.w64, 3, 33, 16⟩
  | 4 => some ⟨.w64, 4, 34, 16⟩
  | _ => none

/-- The row of the current cipher object (10_state.md R23). -/
def State.variantRow (s : State) : Option VariantRow := vtLookup s.variant.toNat

/-- VT_LOOKUP(tag) (R111): the row on the result lines, or `UNIMPLEMENTED_VARIANT`. -/
def execVtLookup (s : State) : Host.Outcome State Fault Refusal :=
  match vtLookup s.ports.tag.toNat with
  | some row => .next { s with ports := { s.ports with row := some row } }
  | none => .next (fail .unimplementedVariant s)

end Sys2Proof.Machine
end

