-- ==== Sys2Proof/Machine/KeySchedule.lean ====
section
/-!
DEFINITION. The key scheduler (42_key_scheduler.md): both loop shapes of R142 as written, and KS_EXPAND.
-/

namespace Sys2Proof.Machine

/-- The key scheduler's running state `A` and its m − 1 taps (R141). -/
structure Sched where
  a : Word
  taps : List Word
deriving DecidableEq, Repr

/-- The initial state: A = K[0], TAP[j] = K[j+1] (R141). -/
def schedInit (row : VariantRow) (kb : List Byte) : Sched :=
  let k := keyWordsOf row kb
  ⟨k.headD 0#64, k.tail⟩

/-- One round with index i: `(TAP[t], A) <- RF_ENC(TAP[t], A, i)`, t = i mod (m−1) (R142, R143). -/
def schedRound (row : VariantRow) (i : Nat) (st : Sched) : Sched :=
  let t := i % (row.keyWords - 1)
  let r := rfEnc row.width ⟨st.taps.getD t 0#64, st.a⟩ (BitVec.ofNat 64 i)
  ⟨r.y, st.taps.set t r.x⟩

/-- `count` iterations of the loop of R142 from index i: record A, then one round. -/
def schedLoop (row : VariantRow) : Nat → Nat → Sched → List Word × Sched
  | 0, _, st => ([], st)
  | count + 1, i, st =>
    let rest := schedLoop row count (i + 1) (schedRound row i st)
    (st.a :: rest.1, rest.2)

/-- The B = 8 shape: T iterations and no final append (R142). -/
def expandShort (row : VariantRow) (kb : List Byte) : List Word × Sched :=
  schedLoop row row.rounds 0 (schedInit row kb)

/-- The B = 16 shape: T − 1 iterations, then A is appended (R142). -/
def expandLong (row : VariantRow) (kb : List Byte) : List Word × Sched :=
  let r := schedLoop row (row.rounds - 1) 0 (schedInit row kb)
  (r.1 ++ [r.2.a], r.2)

/-- The scheduled key rk[0 .. T−1] and the final A and taps, by block size (R142). -/
def expandKey (row : VariantRow) (kb : List Byte) : List Word × Sched :=
  if row.blockBytes = 8 then expandShort row kb else expandLong row kb

/-- KS_EXPAND(tag, kb) (R142): writes RK, A and TAP. A tag without a row raises `UNIMPLEMENTED_VARIANT` (R111);
key bytes no line drives are free (log 10). -/
def execKsExpand (s : State) : Host.Outcome State Fault Refusal :=
  match vtLookup s.ports.tag.toNat with
  | some row =>
    let r := expandKey row (driven s.draws (keyLength row) s.ports.bytesIn)
    .next ({ s with
      rk := rkFileOf r.1 s.draws
      work := { s.work with a := r.2.a, tap := tapsHolding r.2.taps s.work.tap } }).releaseCounters
  | none => .next (fail .unimplementedVariant s)

end Sys2Proof.Machine
end

