-- ==== Sys2Proof/Machine/Engine.lean ====
section
/-!
DEFINITION. The block cipher engine (43_block_engine.md): BE_ENC and BE_DEC.
-/

namespace Sys2Proof.Machine

/-- The encrypt rounds with the given round keys, ascending (R160). -/
def encBlock (w : Width) (rks : List Word) (b : Block) : Block := rks.foldl (rfEnc w) b

/-- The decrypt rounds with the given round keys, the last one first (R161). -/
def decBlock (w : Width) (rks : List Word) (b : Block) : Block := rks.foldr (fun k acc => rfDec w acc k) b

/-- One pass of the engine over the block on the ports: X and Y hold the result and it is returned (R160 to
R162). A `VARIANT` without a row raises `UNIMPLEMENTED_VARIANT` (U8, log 12). -/
def engineUop (pass : Width → List Word → Block → Block) (s : State) : State :=
  match s.variantRow with
  | some row =>
    let b := pass row.width (s.roundKeys row.rounds) s.blockIn
    (({ s with work := { s.work with x := b.x, y := b.y } }).driveBlock b).releaseCounters
  | none => fail .unimplementedVariant s

/-- BE_ENC (R160). -/
def execBeEnc (s : State) : Host.Outcome State Fault Refusal := .next (engineUop encBlock s)

/-- BE_DEC (R161). -/
def execBeDec (s : State) : Host.Outcome State Fault Refusal := .next (engineUop decBlock s)

end Sys2Proof.Machine
end

