-- ==== Sys2Proof/Machine/Modes.lean ====
section
/-!
DEFINITION. The mode drivers (44_mode_drivers.md): ECB and CBC, both directions.
-/

namespace Sys2Proof.Machine

/-- One block through the engine: decode, run, encode (R181). -/
def throughEngine (w : Width) (engine : Block → Block) (s : List Byte) : List Byte :=
  blockBytesOf w (engine (blockAt w s 0))

/-- ECB over the blocks, each independent (R181, R182). -/
def ecbRun (w : Width) (engine : Block → Block) : List (List Byte) → List Byte
  | [] => []
  | p :: ps => throughEngine w engine p ++ ecbRun w engine ps

/-- CBC encryption with `PREV` = prev: the engine's output becomes the next `PREV` (R183). -/
def cbcEncRun (w : Width) (engine : Block → Block) : List Byte → List (List Byte) → List Byte
  | _, [] => []
  | prev, p :: ps =>
    let c := throughEngine w engine (xorBytes p prev)
    c ++ cbcEncRun w engine c ps

/-- CBC decryption with `PREV` = prev: XOR with the previous ciphertext block, then `PREV` is the block just
read (R184, 90_conflicts.md C5). -/
def cbcDecRun (w : Width) (engine : Block → Block) : List Byte → List (List Byte) → List Byte
  | _, [] => []
  | prev, c :: cs => xorBytes (throughEngine w engine c) prev ++ cbcDecRun w engine c cs

/-- The N = len(buf) / B blocks of a buffer (R180). -/
def bufBlocks (row : VariantRow) (buf : List Byte) : List (List Byte) :=
  blocksOf row.blockBytes (buf.length / row.blockBytes) buf

/-- The all-zero block, the fixed IV (R183, R186). -/
def zeroBlock (row : VariantRow) : List Byte := List.replicate row.blockBytes 0#8

/-- ECB_ENC(buf) (R181). -/
def ecbEncBytes (row : VariantRow) (rks : List Word) (buf : List Byte) : List Byte :=
  ecbRun row.width (encBlock row.width rks) (bufBlocks row buf)

/-- ECB_DEC(buf) (R182). -/
def ecbDecBytes (row : VariantRow) (rks : List Word) (buf : List Byte) : List Byte :=
  ecbRun row.width (decBlock row.width rks) (bufBlocks row buf)

/-- CBC_ENC(buf) (R183). -/
def cbcEncBytes (row : VariantRow) (rks : List Word) (buf : List Byte) : List Byte :=
  cbcEncRun row.width (encBlock row.width rks) (zeroBlock row) (bufBlocks row buf)

/-- CBC_DEC(buf) (R184). -/
def cbcDecBytes (row : VariantRow) (rks : List Word) (buf : List Byte) : List Byte :=
  cbcDecRun row.width (decBlock row.width rks) (zeroBlock row) (bufBlocks row buf)

/-- X and Y after a driver: the engine's last result, if there was a block (10_state.md R24). -/
def Work.afterBlocks (b : Block) (buf : List Byte) (wk : Work) : Work :=
  if buf = [] then wk else { wk with x := b.x, y := b.y }

/-- The last ciphertext block of a CBC run, the zero block if there was none: `PREV` at its end (R183, R184). -/
def chainEnd (row : VariantRow) (ciphertext : List Byte) : List Byte :=
  if ciphertext = [] then zeroBlock row else lastBytes row.blockBytes ciphertext

/-- A driver run on the lines: `work` and `out` say what it leaves in the working registers and on the result
lines. A buffer that is not block-aligned is outside the driver's contract (R180): the result is as many free
bytes, and the working registers, `PREV` among them, hold any value. The two are separate draws, so that no result
byte is tied to a byte of `PREV` (DESIGN CHOICE, log 10). A `VARIANT` without a row raises
`UNIMPLEMENTED_VARIANT` (U8, log 12). -/
def driverUop (out : VariantRow → List Word → List Byte → List Byte)
    (work : VariantRow → List Word → List Byte → Work → Work) (s : State) : State :=
  match s.variantRow with
  | some row =>
    let buf := s.ports.bytesIn
    let rks := s.roundKeys row.rounds
    if buf.length % row.blockBytes = 0 then
      ({ s with
        work := work row rks buf s.work
        ports := { s.ports with bytesOut := out row rks buf } }).releaseCounters
    else
      ({ s with
        ports := { s.ports with bytesOut := freeBytes s.draws buf.length }
        draws := s.draws + 1 }).releaseWork
  | none => fail .unimplementedVariant s

/-- What ECB_ENC leaves in X and Y: the last output block. -/
def ecbEncWork (row : VariantRow) (rks : List Word) (buf : List Byte) (wk : Work) : Work :=
  wk.afterBlocks (blockAt row.width (lastBytes row.blockBytes (ecbEncBytes row rks buf)) 0) buf

/-- What ECB_DEC leaves in X and Y: the last output block. -/
def ecbDecWork (row : VariantRow) (rks : List Word) (buf : List Byte) (wk : Work) : Work :=
  wk.afterBlocks (blockAt row.width (lastBytes row.blockBytes (ecbDecBytes row rks buf)) 0) buf

/-- What CBC_ENC leaves: X and Y the last output block, `PREV` its bytes (bytes [B .. 16): log 18). -/
def cbcEncWork (row : VariantRow) (rks : List Word) (buf : List Byte) (wk : Work) : Work :=
  let out := cbcEncBytes row rks buf
  { wk.afterBlocks (blockAt row.width (lastBytes row.blockBytes out) 0) buf with
    prev := prevHolding (chainEnd row out) wk.prev }

/-- What CBC_DEC leaves: X and Y the engine's last result, `PREV` the last ciphertext block (bytes [B .. 16):
log 18). -/
def cbcDecWork (row : VariantRow) (rks : List Word) (buf : List Byte) (wk : Work) : Work :=
  let last := blockAt row.width (lastBytes row.blockBytes buf) 0
  { wk.afterBlocks (decBlock row.width rks last) buf with
    prev := prevHolding (chainEnd row buf) wk.prev }

/-- ECB_ENC (R181). -/
def execEcbEnc (s : State) : Host.Outcome State Fault Refusal := .next (driverUop ecbEncBytes ecbEncWork s)

/-- ECB_DEC (R182). -/
def execEcbDec (s : State) : Host.Outcome State Fault Refusal := .next (driverUop ecbDecBytes ecbDecWork s)

/-- CBC_ENC (R183). -/
def execCbcEnc (s : State) : Host.Outcome State Fault Refusal := .next (driverUop cbcEncBytes cbcEncWork s)

/-- CBC_DEC (R184). -/
def execCbcDec (s : State) : Host.Outcome State Fault Refusal := .next (driverUop cbcDecBytes cbcDecWork s)

end Sys2Proof.Machine
end

