-- ==== Sys2Proof/WellFormed.lean ====
section
/-!
DEFINITION. Which instructions an encoding can hold: VAR is a 3-bit field and MODE a 2-bit field
(30_encoding.md R80). Codes 5 to 7 of VAR and 2 to 3 of MODE are well formed; the command rules report them (R93).
-/

namespace Sys2Proof

/-- Every field fits its bits. -/
def Instr.WellFormed : Instr → Bool
  | .construct var => decide (var < 8)
  | .encrypt mode _ => decide (mode < 4)
  | .decrypt mode _ => decide (mode < 4)
  | .vtLookup | .rfEnc _ | .rfDec _ | .ksExpand | .beEnc | .beDec => true
  | .ecbEnc | .ecbDec | .cbcEnc | .cbcDec | .pad | .unpad | .blkDecode | .blkEncode => true

end Sys2Proof
end

