-- ==== Sys2Proof/Decode.lean ====
section
/-!
DEFINITION. Decoding (30_encoding.md R86, R89), total on every code and refusing by name, then the encoder
written from the same tables (R80 to R84, R89), the opcode table's rows (R93), and the bridge from the
table's bit numbering to codes.
-/

namespace Sys2Proof

/-- Why a code is no instruction: the cases (a) to (d) of R85, and a UOP code R89 leaves unused. -/
inductive DecodeError where
  /-- R85 (a): OPC is 0 or 4 to 15. -/
  | reservedOpcode
  /-- R85 (b): a bit of [7], [11:10] or [31:13] is 1. -/
  | reservedBit
  /-- R85 (c), (d): a field the opcode does not use is not 0. -/
  | unusedField
  /-- R89: a UOP code the dispatcher never produces. -/
  | unusedUop
deriving DecidableEq, Repr

/-- `PAD` from its bit (R84). -/
def Padding.ofBit (b : BitVec 1) : Padding := if b = 1#1 then .pkcs7 else .none

/-- The `PAD` bit (R84). -/
def Padding.bit : Padding → BitVec 1
  | .none => 0#1
  | .pkcs7 => 1#1

/-- `OPC`, bits [3:0] (R80). -/
def cmdOpc (c : BitVec 32) : BitVec 4 := c.extractLsb' 0 4

/-- `VAR`, bits [6:4] (R80). -/
def cmdVar (c : BitVec 32) : BitVec 3 := c.extractLsb' 4 3

/-- `MODE`, bits [9:8] (R80). -/
def cmdMode (c : BitVec 32) : BitVec 2 := c.extractLsb' 8 2

/-- `PAD`, bit [12] (R80). -/
def cmdPad (c : BitVec 32) : BitVec 1 := c.extractLsb' 12 1

/-- Every reserved bit of the command word, [7], [11:10] and [31:13], is 0 (R80). -/
def cmdReservedZero (c : BitVec 32) : Bool :=
  c.extractLsb' 7 1 == 0#1 && c.extractLsb' 10 2 == 0#2 && c.extractLsb' 13 19 == 0#19

/-- R86, in its order; the three error names all mean ILLEGAL. -/
def decodeCmd (c : BitVec 32) : Except DecodeError Instr :=
  if !cmdReservedZero c then .error .reservedBit
  else if cmdOpc c = 1#4 then
    if cmdMode c = 0#2 ∧ cmdPad c = 0#1 then .ok (.construct (cmdVar c).toNat) else .error .unusedField
  else if cmdOpc c = 2#4 then
    if cmdVar c = 0#3 then .ok (.encrypt (cmdMode c).toNat (Padding.ofBit (cmdPad c))) else .error .unusedField
  else if cmdOpc c = 3#4 then
    if cmdVar c = 0#3 then .ok (.decrypt (cmdMode c).toNat (Padding.ofBit (cmdPad c))) else .error .unusedField
  else .error .reservedOpcode

/-- The UOP codes of R89. -/
def decodeUop (u : BitVec 8) : Except DecodeError Instr :=
  match u.toNat with
  | 0x10 => .ok .vtLookup
  | 0x20 => .ok (.rfEnc .w32)
  | 0x21 => .ok (.rfDec .w32)
  | 0x22 => .ok (.rfEnc .w64)
  | 0x23 => .ok (.rfDec .w64)
  | 0x30 => .ok .ksExpand
  | 0x40 => .ok .beEnc
  | 0x41 => .ok .beDec
  | 0x50 => .ok .ecbEnc
  | 0x51 => .ok .ecbDec
  | 0x52 => .ok .cbcEnc
  | 0x53 => .ok .cbcDec
  | 0x60 => .ok .pad
  | 0x61 => .ok .unpad
  | 0x70 => .ok .blkDecode
  | 0x71 => .ok .blkEncode
  | _ => .error .unusedUop

/-- The decoder, total on every code. -/
def decode : Code → Except DecodeError Instr
  | .cmd32 c => decodeCmd c
  | .uop8 u => decodeUop u

/-- `OPC | VAR<<4 | MODE<<8 | PAD<<12` (R90). -/
def cmdWord (opc var mode : Nat) (pad : Padding) : BitVec 32 :=
  BitVec.ofNat 32 opc ||| (BitVec.ofNat 32 var <<< 4) ||| (BitVec.ofNat 32 mode <<< 8)
    ||| (pad.bit.setWidth 32 <<< 12)

/-- `UNIT` in bits [7:4], `FN` in bits [3:0] (R89). -/
def uopCode (unit fn : Nat) : BitVec 8 := (BitVec.ofNat 8 unit <<< 4) ||| BitVec.ofNat 8 fn

/-- `WSEL` as it stands in FN[1] (R89). -/
def Width.wsel : Width → Nat
  | .w32 => 0
  | .w64 => 1

/-- The encoder. -/
def encode : Instr → Code
  | .construct var => .cmd32 (cmdWord 1 var 0 .none)
  | .encrypt mode pad => .cmd32 (cmdWord 2 0 mode pad)
  | .decrypt mode pad => .cmd32 (cmdWord 3 0 mode pad)
  | .vtLookup => .uop8 (uopCode 1 0)
  | .rfEnc wsel => .uop8 (uopCode 2 (2 * wsel.wsel))
  | .rfDec wsel => .uop8 (uopCode 2 (2 * wsel.wsel + 1))
  | .ksExpand => .uop8 (uopCode 3 0)
  | .beEnc => .uop8 (uopCode 4 0)
  | .beDec => .uop8 (uopCode 4 1)
  | .ecbEnc => .uop8 (uopCode 5 0)
  | .ecbDec => .uop8 (uopCode 5 1)
  | .cbcEnc => .uop8 (uopCode 5 2)
  | .cbcDec => .uop8 (uopCode 5 3)
  | .pad => .uop8 (uopCode 6 0)
  | .unpad => .uop8 (uopCode 6 1)
  | .blkDecode => .uop8 (uopCode 7 0)
  | .blkEncode => .uop8 (uopCode 7 1)

/-- A row of the opcode table: the code's format with the row's match and mask (R93). -/
structure TableRow where
  bits : Nat
  fixed : Nat
  mask : Nat
deriving DecidableEq, Repr

/-- The row of each instruction (R93). -/
def tableRow : Instr → TableRow
  | .construct _ => ⟨32, 0x00000001, 0xFFFFFF8F⟩
  | .encrypt _ _ => ⟨32, 0x00000002, 0xFFFFECFF⟩
  | .decrypt _ _ => ⟨32, 0x00000003, 0xFFFFECFF⟩
  | .vtLookup => ⟨8, 0x10, 0xFF⟩
  | .rfEnc _ => ⟨8, 0x20, 0xFD⟩
  | .rfDec _ => ⟨8, 0x21, 0xFD⟩
  | .ksExpand => ⟨8, 0x30, 0xFF⟩
  | .beEnc => ⟨8, 0x40, 0xFF⟩
  | .beDec => ⟨8, 0x41, 0xFF⟩
  | .ecbEnc => ⟨8, 0x50, 0xFF⟩
  | .ecbDec => ⟨8, 0x51, 0xFF⟩
  | .cbcEnc => ⟨8, 0x52, 0xFF⟩
  | .cbcDec => ⟨8, 0x53, 0xFF⟩
  | .pad => ⟨8, 0x60, 0xFF⟩
  | .unpad => ⟨8, 0x61, 0xFF⟩
  | .blkDecode => ⟨8, 0x70, 0xFF⟩
  | .blkEncode => ⟨8, 0x71, 0xFF⟩

/-- A code lies in a row: its format is the row's, and its masked bits are the row's match. -/
def TableRow.Holds (r : TableRow) : Code → Bool
  | .cmd32 c => r.bits == 32 && (c &&& BitVec.ofNat 32 r.mask) == BitVec.ofNat 32 r.fixed
  | .uop8 u => r.bits == 8 && (u &&& BitVec.ofNat 8 r.mask) == BitVec.ofNat 8 r.fixed

/-- The code whose bits, numbered as the opcode table numbers them, are `w`: up to 8 bits are a UOP code,
more are a command word, the two formats of the table (log 16). -/
def codeOfTable (nbits w : Nat) : Code :=
  if nbits ≤ 8 then .uop8 (BitVec.ofNat 8 (w % 2 ^ nbits)) else .cmd32 (BitVec.ofNat 32 (w % 2 ^ nbits))

/-- The instruction the decoder reads from a word of the opcode table. -/
def decodeTableWord (nbits w : Nat) : Option Instr :=
  match decode (codeOfTable nbits w) with
  | .ok i => some i
  | .error _ => none

end Sys2Proof
end

