-- ==== Sys2Proof/Machine/Padder.lean ====
section
/-!
DEFINITION. The PKCS7 padder and unpadder (45_padding.md): PAD and UNPAD.
-/

namespace Sys2Proof.Machine

/-- PAD(data, B, en) (R200). -/
def padBytes (B : Nat) (en : Padding) (data : List Byte) : List Byte :=
  match en with
  | .none => data
  | .pkcs7 =>
    let p := B - data.length % B
    data ++ List.replicate p (BitVec.ofNat 8 p)

/-- UNPAD(data, B, en), lenient (R201 to R204): the only error is `EMPTY_UNPAD`. -/
def unpadBytes (B : Nat) (en : Padding) (data : List Byte) : Except ErrCode (List Byte) :=
  match en with
  | .none => .ok data
  | .pkcs7 =>
    let len := data.length
    match data.getLast? with
    | none => .error .emptyUnpad
    | some last =>
      let p := last.toNat
      if p > B then .ok data
      else if p > len then .ok data
      else if (data.drop (len - p)).all (· == last) then .ok (data.take (len - p))
      else .ok data

/-- `en` is `CMD.PAD` of the running command (45_padding.md). -/
def State.padEnable (s : State) : Padding := Padding.ofBit (cmdPad s.cmd)

/-- PAD (R200), B the block size of the current variant. A `VARIANT` without a row raises
`UNIMPLEMENTED_VARIANT` (U8, log 12). -/
def execPad (s : State) : Host.Outcome State Fault Refusal :=
  match s.variantRow with
  | some row =>
    .next { s with ports := { s.ports with bytesOut := padBytes row.blockBytes s.padEnable s.ports.bytesIn } }
  | none => .next (fail .unimplementedVariant s)

/-- UNPAD (R201). -/
def execUnpad (s : State) : Host.Outcome State Fault Refusal :=
  match s.variantRow with
  | some row =>
    match unpadBytes row.blockBytes s.padEnable s.ports.bytesIn with
    | .ok out => .next { s with ports := { s.ports with bytesOut := out } }
    | .error code => .next (fail code s)
  | none => .next (fail .unimplementedVariant s)

end Sys2Proof.Machine
end

