-- ==== Sys2Proof/Machine/Commands.lean ====
section
/-!
DEFINITION. The host commands (46_dispatcher.md): CONSTRUCT, ENCRYPT, DECRYPT and the illegal command word, with
the checks in the order of 60_exceptions.md R253.
-/

namespace Sys2Proof.Machine

/-- The checks of CONSTRUCT (R222). -/
def constructChecks (var : Nat) (s : State) : Except ErrCode VariantRow :=
  match vtLookup var with
  | none => .error .unimplementedVariant
  | some row => if s.ilen.toNat = keyLength row then .ok row else .error .invalidKeyLength

/-- Install a new cipher object: RK, VARIANT and KEY_VALID together (10_state.md R23). -/
def State.installKey (s : State) (var : Nat) (schedule : List Word) : State :=
  { s with
    rk := rkFileOf schedule s.draws
    variant := BitVec.ofNat 3 var
    keyValid := true }

/-- CONSTRUCT (R222). -/
def execConstruct (var : Nat) (s : State) : Host.Outcome State Fault Refusal :=
  match constructChecks var s with
  | .error code => .next (fail code s)
  | .ok row => .next (succeed 0 ((s.installKey var (expandKey row s.operand).1).releaseWork))

/-- The checks ENCRYPT and DECRYPT share, before the alignment check (R223, R224): the row of the cipher
object. A `VARIANT` without a row reports `UNIMPLEMENTED_VARIANT` (U8, log 12). -/
def dataChecks (s : State) : Except ErrCode VariantRow :=
  if !s.keyValid then .error .noKey
  else if s.ilen.toNat > s.ibufBytes then .error .lengthOverflow
  else match s.variantRow with
    | none => .error .unimplementedVariant
    | some row => .ok row

/-- The output of ENCRYPT, or its error (R223). -/
def encryptOutput (mode : Nat) (pad : Padding) (s : State) : Except ErrCode (List Byte) :=
  match dataChecks s with
  | .error code => .error code
  | .ok row =>
    if pad = .none ∧ s.ilen.toNat % row.blockBytes ≠ 0 then .error .unalignedInput
    else
      let d := padBytes row.blockBytes pad s.operand
      match mode with
      | 0 => .ok (ecbEncBytes row (s.roundKeys row.rounds) d)
      | 1 => .ok (cbcEncBytes row (s.roundKeys row.rounds) d)
      | _ => .error .unimplementedMode

/-- The output of DECRYPT, or its error (R224): alignment, then mode, then unpadding. -/
def decryptOutput (mode : Nat) (pad : Padding) (s : State) : Except ErrCode (List Byte) :=
  match dataChecks s with
  | .error code => .error code
  | .ok row =>
    if s.ilen.toNat % row.blockBytes ≠ 0 then .error .unalignedInput
    else
      match mode with
      | 0 => unpadBytes row.blockBytes pad (ecbDecBytes row (s.roundKeys row.rounds) s.operand)
      | 1 => unpadBytes row.blockBytes pad (cbcDecBytes row (s.roundKeys row.rounds) s.operand)
      | _ => .error .unimplementedMode

/-- The end of a data command: MemWrite and succeed, or fail (R221, R223, R224). -/
def finishData (result : Except ErrCode (List Byte)) (s : State) : State :=
  match result with
  | .error code => fail code s
  | .ok out => succeed out.length ((s.memWrite 0 out).releaseWork)

/-- ENCRYPT (R223). -/
def execEncrypt (mode : Nat) (pad : Padding) (s : State) : Host.Outcome State Fault Refusal :=
  .next (finishData (encryptOutput mode pad s) s)

/-- DECRYPT (R224). -/
def execDecrypt (mode : Nat) (pad : Padding) (s : State) : Host.Outcome State Fault Refusal :=
  .next (finishData (decryptOutput mode pad s) s)

/-- An illegal command word (R225). -/
def illegalCommand (s : State) : State := fail .illegalCommand s

end Sys2Proof.Machine
end

