-- ==== Sys2Proof/Machine/Dispatch.lean ====
section
/-!
DEFINITION. One arm per instruction, each one call of its meaning.
-/

namespace Sys2Proof.Machine

def exec (i : Instr) (s : State) : Host.Outcome State Fault Refusal :=
  match i with
  -- host commands (46_dispatcher.md)
  | .construct var => Sys2Proof.Machine.execConstruct var s
  | .encrypt mode pad => Sys2Proof.Machine.execEncrypt mode pad s
  | .decrypt mode pad => Sys2Proof.Machine.execDecrypt mode pad s
  -- internal operations (30_encoding.md R89)
  | .vtLookup => Sys2Proof.Machine.execVtLookup s
  | .rfEnc wsel => Sys2Proof.Machine.execRfEnc wsel s
  | .rfDec wsel => Sys2Proof.Machine.execRfDec wsel s
  | .ksExpand => Sys2Proof.Machine.execKsExpand s
  | .beEnc => Sys2Proof.Machine.execBeEnc s
  | .beDec => Sys2Proof.Machine.execBeDec s
  | .ecbEnc => Sys2Proof.Machine.execEcbEnc s
  | .ecbDec => Sys2Proof.Machine.execEcbDec s
  | .cbcEnc => Sys2Proof.Machine.execCbcEnc s
  | .cbcDec => Sys2Proof.Machine.execCbcDec s
  | .pad => Sys2Proof.Machine.execPad s
  | .unpad => Sys2Proof.Machine.execUnpad s
  | .blkDecode => Sys2Proof.Machine.execBlkDecode s
  | .blkEncode => Sys2Proof.Machine.execBlkEncode s

end Sys2Proof.Machine
end

