-- ==== Sys2Proof/Machine/HostBus.lean ====
section
/-!
DEFINITION. The host window (20_memory.md R50 to R57), reset (70_reset_and_hazards.md R280), and what a step starts
with: a selected internal operation, else the host's next input.
-/

namespace Sys2Proof.Machine

/-- A window offset inside IBUF (R51). -/
def State.inIbuf (s : State) (off : Nat) : Bool := decide (ibufBase ≤ off ∧ off < ibufBase + s.ibufBytes)

/-- A window offset inside OBUF (R51). -/
def State.inObuf (s : State) (off : Nat) : Bool := decide (obufBase ≤ off ∧ off < obufBase + s.obufBytes)

/-- What HOST_RD32(off) returns (R51, R53 to R56). -/
def State.busRead (s : State) (off : Nat) : BusWord :=
  if off = 0x00000 then s.cmd
  else if off = 0x00004 then s.statusWord
  else if off = 0x00008 then s.ilen
  else if off = 0x0000C then s.olen
  else if off = 0x00010 then s.bufcap
  else if s.inIbuf off || s.inObuf off then busWordOf (s.bytesAt off 4)
  else 0#32

/-- HOST_RD32(off): the value goes to the host, and nothing else changes (R64). -/
def hostRead (off : Nat) (s : State) : State :=
  { s with hostReads := s.busRead off :: s.hostReads }

/-- HOST_WR32(off, v) at an offset other than CMD: ILEN and IBUF are written, everything else ignores the write
(R51, R54, R55). -/
def hostWrite (off : Nat) (v : BusWord) (s : State) : State :=
  if off = 0x00008 then { s with ilen := v }
  else if s.inIbuf off then { s with mem := Memory.writeBytes s.mem off (lanes v) }
  else s

/-- `rst` (R280): every piece of state gets its reset value, with new draws for what is unspecified. The host's
inputs, what it has read and the error history are no state of the core and stay (log 13). -/
def assertReset (s : State) : State :=
  { State.powerOn s.bufcap (s.epoch + 1) s.draws with
    host := s.host, hostReads := s.hostReads, errLog := s.errLog }

/-- R52: a transaction is 32 bits wide at an offset that is a multiple of 4. -/
def inContract (width off : Nat) : Bool := width == 32 && off % 4 == 0

/-- What a step starts with. -/
inductive Issue where
  /-- run an instruction in a state -/
  | run (i : Instr) (s : State)
  /-- nothing to run: the step has ended -/
  | done (o : Host.Outcome State Fault Refusal)

/-- Run a code, or end as its rejection says. -/
def issueCode (c : Code) (reject : Host.Outcome State Fault Refusal) (s : State) : Issue :=
  match decode c with
  | .ok i => .run i s
  | .error _ => .done reject

/-- The host's transaction on the window. A write to CMD stores the word, then runs the command it encodes
(46_dispatcher.md R220); an illegal word ends as R225 says. -/
def issueWrite (off : Nat) (v : BusWord) (s : State) : Issue :=
  if off = 0 then
    let s' := { s with cmd := v }
    issueCode (.cmd32 v) (.next (illegalCommand s')) s'
  else .done (.next (hostWrite off v s))

/-- One host input. -/
def issueInput (input : HostInput) (s : State) : Issue :=
  match input with
  | .rst => .done (.next (assertReset s))
  | .read width off =>
    if inContract width off then .done (.next (hostRead off s)) else .done (.refused .outsideHostContract)
  | .write width off v =>
    if inContract width off then issueWrite off v s else .done (.refused .outsideHostContract)

/-- A selected internal operation is run and the select lines go idle (log 8); else the host's next input is
taken; with no input left the core is idle and holds its state (60_exceptions.md R263, log 1). -/
def nextIssue (s : State) : Issue :=
  match s.uop with
  | some u => issueCode (.uop8 u) (.refused .unusedUop) { s with uop := none }
  | none =>
    match s.host with
    | [] => .done (.next s)
    | input :: rest => issueInput input { s with host := rest }

end Sys2Proof.Machine
end

