-- ==== Sys2Proof/Machine/Step.lean ====
section
/-!
DEFINITION. One step: a selected internal operation, else the host's next input; and where an instruction is
placed so that the next step runs it (log 16).
-/

namespace Sys2Proof.Machine

/-- One step of the machine. -/
def step (s : State) : Host.Outcome State Fault Refusal :=
  match nextIssue s with
  | .run i s' => exec i s'
  | .done o => o

/-- `s` with a code put where the next step takes its instruction: a UOP on the select lines, a command word as
the host's next write to CMD. -/
def State.withCode (s : State) : Code → State
  | .uop8 u => { s with uop := some u }
  | .cmd32 c => { s with uop := none, host := .write 32 0 c :: s.host }

/-- `s` with a word of the opcode table put where the next step takes its instruction. -/
def State.withFetchWord (s : State) (nbits w : Nat) : State := s.withCode (codeOfTable nbits w)

end Sys2Proof.Machine
end

