-- ==== Sys2Proof/Safety.lean ====
section
/-!
DEFINITION. The terms claims use: byte slices and integer rotations as the spec writes them (00_scope.md R8, R9),
what one instruction may leave unchanged, what the host can see, and the invariant of a safe run.
-/

namespace Sys2Proof.Machine

/-! ### The spec's notation -/

/-- `s[i .. j)` (R8). -/
def slice (s : List Byte) (i j : Nat) : List Byte := (s.drop i).take (j - i)

/-- `ror_W(v, r)` on the unbounded integer (R9). -/
def rorNat (W v r : Nat) : Nat := ((v >>> r) ||| (v <<< (W - r))) % 2 ^ W

/-- `rol_W(v, r)` on the unbounded integer (R9). -/
def rolNat (W v r : Nat) : Nat := ((v <<< r) ||| (v >>> (W - r))) % 2 ^ W

/-- A block of two W-bit words. -/
def BlockFits (w : Width) (b : Block) : Prop := b.x.toNat < 2 ^ w.bits ∧ b.y.toNat < 2 ^ w.bits

/-- The byte sequence is a whole number of blocks (44_mode_drivers.md R180). -/
def Aligned (row : VariantRow) (buf : List Byte) : Prop := buf.length % row.blockBytes = 0

/-- Block j of a buffer: bytes [j·B, (j+1)·B) (R62). -/
def blockSlice (row : VariantRow) (buf : List Byte) (j : Nat) : List Byte :=
  slice buf (j * row.blockBytes) ((j + 1) * row.blockBytes)

/-- The block before block j of a ciphertext, the all-zero block before the first (R183, R184). -/
def chained (row : VariantRow) (cipher : List Byte) (j : Nat) : List Byte :=
  if j = 0 then List.replicate row.blockBytes 0#8 else blockSlice row cipher (j - 1)

/-- The command word is illegal: the cases (a) to (d) of 30_encoding.md R85, on the bits of R80. -/
def IllegalWord (c : BitVec 32) : Prop :=
  let opc := c.extractLsb' 0 4
  let var := c.extractLsb' 4 3
  let mode := c.extractLsb' 8 2
  let pad := c.extractLsb' 12 1
  (opc = 0#4 ∨ 4 ≤ opc.toNat) ∨
  (c.extractLsb' 7 1 ≠ 0#1 ∨ c.extractLsb' 10 2 ≠ 0#2 ∨ c.extractLsb' 13 19 ≠ 0#19) ∨
  (opc = 1#4 ∧ (mode ≠ 0#2 ∨ pad ≠ 0#1)) ∨
  ((opc = 2#4 ∨ opc = 3#4) ∧ var ≠ 0#3)

/-- `p` is the operand of a command: IBUF[0 .. ILEN) (30_encoding.md R87). -/
def OperandIs (p : List Byte) (s : State) : Prop :=
  p.length = s.ilen.toNat ∧ ∀ i, (h : i < p.length) → s.byteAt (ibufBase + i) = p[i]

/-! ### Frames -/

/-- The cipher object is unchanged (10_state.md R23). -/
def KeyKept (s t : State) : Prop := t.keyValid = s.keyValid ∧ t.variant = s.variant ∧ t.rk = s.rk

/-- Every buffer byte reads as before. -/
def BytesKept (s t : State) : Prop := ∀ a, t.byteAt a = s.byteAt a

/-- What only the host or reset changes: CMD, ILEN, BUFCAP, the select lines, the host's side, the reset count. -/
def HostSideKept (s t : State) : Prop :=
  t.cmd = s.cmd ∧ t.ilen = s.ilen ∧ t.bufcap = s.bufcap ∧ t.uop = s.uop ∧ t.host = s.host ∧
    t.hostReads = s.hostReads ∧ t.epoch = s.epoch

/-- The outcome of the last command is unchanged: ERR, OLEN and the error history. -/
def OutcomeKept (s t : State) : Prop := t.err = s.err ∧ t.olen = s.olen ∧ t.errLog = s.errLog

/-- The outcome is that of a command that ended with `code` and a result of `len` bytes (46_dispatcher.md R221). -/
def EndedWith (code : ErrCode) (len : Nat) (s t : State) : Prop :=
  t.err = code ∧ t.olen.toNat = len ∧ t.errLog = code :: s.errLog

/-- `t` is `s` after a failed command: ERR has the code, OLEN is 0 and nothing else changed (R252, R255). -/
def FailedWith (code : ErrCode) (s t : State) : Prop :=
  t = { s with err := code, olen := 0#32, errLog := code :: s.errLog }

/-- What no internal operation but KS_EXPAND changes, and what no internal operation that does not raise changes:
everything but the working registers, the ports and the free-value counter. -/
def UopFrame (s t : State) : Prop :=
  KeyKept s t ∧ BytesKept s t ∧ HostSideKept s t ∧ OutcomeKept s t

/-- The working registers but X and Y are unchanged (the index counters are not spoken of, log 9). -/
def WorkKeptButBlock (s t : State) : Prop :=
  t.work.prev = s.work.prev ∧ t.work.a = s.work.a ∧ t.work.tap = s.work.tap

/-- What a successful data command leaves unchanged: the cipher object, the host's side, the ports, and every
buffer byte outside OBUF[0 .. len) (46_dispatcher.md R223, R224, 20_memory.md R57). -/
def DataCommandFrame (len : Nat) (s t : State) : Prop :=
  KeyKept s t ∧ HostSideKept s t ∧ t.ports = s.ports ∧
    ∀ a, a < obufBase ∨ obufBase + len ≤ a → t.byteAt a = s.byteAt a

/-- OBUF[0 .. len out) = out and OLEN = len out (R223, R224). -/
def ResultIs (out : List Byte) (t : State) : Prop :=
  t.olen.toNat = out.length ∧ ∀ i, (h : i < out.length) → t.byteAt (obufBase + i) = out[i]

/-! ### What the host can see -/

/-- Every register and every buffer byte a host read can return is the same (20_memory.md R51). The epoch is the
number of the reset the unwritten bytes were drawn at. -/
def HostSame (s t : State) : Prop :=
  t.cmd = s.cmd ∧ t.err = s.err ∧ t.keyValid = s.keyValid ∧ t.statusVariant = s.statusVariant ∧
    t.ilen = s.ilen ∧ t.olen = s.olen ∧ t.bufcap = s.bufcap ∧ t.epoch = s.epoch ∧ BytesKept s t

/-- The next input is a write of a command word that decodes to ENCRYPT or DECRYPT. -/
def NextIsDataCommand (s : State) : Prop :=
  ∃ v rest mode pad, s.host = .write 32 0 v :: rest ∧
    (decode (.cmd32 v) = .ok (.encrypt mode pad) ∨ decode (.cmd32 v) = .ok (.decrypt mode pad))

/-! ### A safe run -/

/-- The cipher object's invariant (10_state.md R23): VARIANT has a row, and RK[0 .. T) is the expansion of some key
of the right length. -/
def KeyInv (s : State) : Prop :=
  s.keyValid = true → ∃ row kb, s.variantRow = some row ∧ kb.length = keyLength row ∧
    s.roundKeys row.rounds = (expandKey row kb).1

/-- A buffer byte is listed only inside IBUF or OBUF, in strictly rising order (20_memory.md R51, log 5). -/
def MemInv (s : State) : Prop :=
  Memory.Wf s.mem ∧ ∀ a ∈ s.mem.map Prod.fst, s.inIbuf a = true ∨ s.inObuf a = true

/-- What holds of every state a run reaches: a legal capacity (00_scope.md R7), idle select lines (30_encoding.md
R89), a canonical memory, OLEN within OBUF (10_state.md R31) and the cipher object's invariant. -/
structure Inv (s : State) : Prop where
  capLegal : Config.CapLegal s.ibufBytes
  uopIdle : s.uop = none
  memInv : MemInv s
  olenBound : s.olen.toNat ≤ s.obufBytes
  keyInv : KeyInv s

end Sys2Proof.Machine
end

