-- ==== Sys2Proof/Certificates/Slice0/Obligations.lean ====
section
/-!
DEFINITION. The statements for the provers, each with the rule of spec/ it formalises.
-/

open Sys2Proof Sys2Proof.Machine

/-! ### Encoding -/

/-- Decoding what the encoder writes gives the instruction back, for every instruction and every operand its
encoding admits (R80 to R89). -/
def Obligations.DecodeEncodeAgree : Prop :=
  ∀ i : Instr, i.WellFormed = true → decode (encode i) = .ok i

/-- A code that decodes is the encoding of what it decodes to: no bit is ignored and no two codes mean the same. -/
def Obligations.DecodedCodesEncodeBack : Prop :=
  ∀ (c : Code) (i : Instr), decode c = .ok i → i.WellFormed = true ∧ encode i = c

/-- The command words of R90 and the UOP codes of R89, as numbers, decode to the instructions they stand for. -/
def Obligations.ListedCodesDecode : Prop :=
  decode (.cmd32 0x00000001#32) = .ok (.construct 0) ∧ decode (.cmd32 0x00000011#32) = .ok (.construct 1) ∧
  decode (.cmd32 0x00000021#32) = .ok (.construct 2) ∧ decode (.cmd32 0x00000031#32) = .ok (.construct 3) ∧
  decode (.cmd32 0x00000041#32) = .ok (.construct 4) ∧
  decode (.cmd32 0x00000002#32) = .ok (.encrypt 0 .none) ∧ decode (.cmd32 0x00001002#32) = .ok (.encrypt 0 .pkcs7) ∧
  decode (.cmd32 0x00000102#32) = .ok (.encrypt 1 .none) ∧ decode (.cmd32 0x00001102#32) = .ok (.encrypt 1 .pkcs7) ∧
  decode (.cmd32 0x00000003#32) = .ok (.decrypt 0 .none) ∧ decode (.cmd32 0x00001003#32) = .ok (.decrypt 0 .pkcs7) ∧
  decode (.cmd32 0x00000103#32) = .ok (.decrypt 1 .none) ∧ decode (.cmd32 0x00001103#32) = .ok (.decrypt 1 .pkcs7) ∧
  decode (.uop8 0x10#8) = .ok .vtLookup ∧ decode (.uop8 0x20#8) = .ok (.rfEnc .w32) ∧
  decode (.uop8 0x22#8) = .ok (.rfEnc .w64) ∧ decode (.uop8 0x21#8) = .ok (.rfDec .w32) ∧
  decode (.uop8 0x23#8) = .ok (.rfDec .w64) ∧ decode (.uop8 0x30#8) = .ok .ksExpand ∧
  decode (.uop8 0x40#8) = .ok .beEnc ∧ decode (.uop8 0x41#8) = .ok .beDec ∧
  decode (.uop8 0x50#8) = .ok .ecbEnc ∧ decode (.uop8 0x51#8) = .ok .ecbDec ∧
  decode (.uop8 0x52#8) = .ok .cbcEnc ∧ decode (.uop8 0x53#8) = .ok .cbcDec ∧
  decode (.uop8 0x60#8) = .ok .pad ∧ decode (.uop8 0x61#8) = .ok .unpad ∧
  decode (.uop8 0x70#8) = .ok .blkDecode ∧ decode (.uop8 0x71#8) = .ok .blkEncode

/-- R85, R225: the words that do not decode are those of cases (a) to (d), and writing one stores it in CMD, sets
ERR to ILLEGAL_COMMAND and OLEN to 0, and changes nothing else. -/
def Obligations.IllegalWordsReportIllegalCommand : Prop :=
  (∀ c : BitVec 32, IllegalWord c ↔ ∀ i, decode (.cmd32 c) ≠ .ok i) ∧
  ∀ (s : State) (c : BitVec 32) (rest : List HostInput),
    s.uop = none → s.host = .write 32 0 c :: rest → IllegalWord c →
    ∃ t, step s = .next t ∧ FailedWith .illegalCommand { s with cmd := c, host := rest } t ∧
      t.statusWord.extractLsb' 0 4 = 6#4

/-! ### The step -/

/-- R220: a write to CMD stores the word, then runs the command it decodes to; an illegal word fails with
ILLEGAL_COMMAND. -/
def Obligations.CmdWriteRunsDecodedCommand : Prop :=
  ∀ (s : State) (v : BusWord) (rest : List HostInput), s.uop = none → s.host = .write 32 0 v :: rest →
    (∀ i, decode (.cmd32 v) = .ok i → step s = exec i { s with cmd := v, host := rest }) ∧
    (∀ e, decode (.cmd32 v) = .error e →
      step s = .next (fail .illegalCommand { s with cmd := v, host := rest }))

/-- A code on the select lines is run and the lines go idle (the model's choice, log 8); a code the spec leaves
unused has no step. -/
def Obligations.SelectedUopRuns : Prop :=
  ∀ (s : State) (u : BitVec 8), s.uop = some u →
    (∀ i, decode (.uop8 u) = .ok i → step s = exec i { s with uop := none }) ∧
    (∀ e, decode (.uop8 u) = .error e → step s = .refused .unusedUop)

/-- A word of the opcode table put where the next step takes its instruction is what that step runs (log 16). -/
def Obligations.FetchWordIsRun : Prop :=
  ∀ (s : State) (nbits w : Nat) (i : Instr), decodeTableWord nbits w = some i →
    step (s.withFetchWord nbits w) =
      if nbits ≤ 8 then exec i { s with uop := none }
      else exec i { s with uop := none, cmd := BitVec.ofNat 32 (w % 2 ^ nbits) }

/-- R263: between commands the core is idle and holds its state (that a step without input is this, log 1, is the
model's choice). -/
def Obligations.IdleCoreHoldsItsState : Prop :=
  ∀ s : State, s.uop = none → s.host = [] → step s = .next s

/-- R52: a transaction of another width than 32 bits, or at an offset not a multiple of 4, has no step; every
other one has a step. -/
def Obligations.OnlyAccessesOutsideContractAreRefused : Prop :=
  ∀ (s : State) (width off : Nat) (v : BusWord) (rest : List HostInput), s.uop = none →
    (s.host = .read width off :: rest ∨ s.host = .write width off v :: rest) →
    ((width ≠ 32 ∨ off % 4 ≠ 0) → step s = .refused .outsideHostContract) ∧
    (width = 32 → off % 4 = 0 → ∃ t, step s = .next t)

/-! ### The round function -/

/-- R121: RF_ENC, both widths, on integers: the encoding, the two outputs, and nothing else changes. -/
def Obligations.RfEncIsTheEncryptRound : Prop :=
  decode (.uop8 0x20#8) = .ok (.rfEnc .w32) ∧ decode (.uop8 0x22#8) = .ok (.rfEnc .w64) ∧
  ∀ (w : Width) (s : State),
    let W := w.bits
    let x := s.ports.xIn.toNat % 2 ^ W
    let y := s.ports.yIn.toNat % 2 ^ W
    let k := s.ports.kIn.toNat % 2 ^ W
    ∃ t, exec (.rfEnc w) s = .next t ∧
      t.ports.xOut.toNat = ((rorNat W x 8 + y) % 2 ^ W) ^^^ k ∧
      t.ports.yOut.toNat = rolNat W y 3 ^^^ t.ports.xOut.toNat ∧
      t = { s with ports := { s.ports with xOut := t.ports.xOut, yOut := t.ports.yOut } }

/-- R122: RF_DEC, both widths, on integers: the encoding, the two outputs, and nothing else changes. -/
def Obligations.RfDecIsTheDecryptRound : Prop :=
  decode (.uop8 0x21#8) = .ok (.rfDec .w32) ∧ decode (.uop8 0x23#8) = .ok (.rfDec .w64) ∧
  ∀ (w : Width) (s : State),
    let W := w.bits
    let x := s.ports.xIn.toNat % 2 ^ W
    let y := s.ports.yIn.toNat % 2 ^ W
    let k := s.ports.kIn.toNat % 2 ^ W
    ∃ t, exec (.rfDec w) s = .next t ∧
      t.ports.yOut.toNat = rorNat W (y ^^^ x) 3 ∧
      t.ports.xOut.toNat = rolNat W (((x ^^^ k) + 2 ^ W - t.ports.yOut.toNat) % 2 ^ W) 8 ∧
      t = { s with ports := { s.ports with xOut := t.ports.xOut, yOut := t.ports.yOut } }

/-- R125: each round undoes the other on W-bit words. -/
def Obligations.RoundsAreInverse : Prop :=
  ∀ (w : Width) (b : Block) (k : Word), BlockFits w b →
    rfDec w (rfEnc w b k) k = b ∧ rfEnc w (rfDec w b k) k = b

/-- R126: with W = 32 the datapath ignores bits [63:32] of its inputs and zero-extends its outputs. -/
def Obligations.NarrowRoundIgnoresUpperBits : Prop :=
  ∀ (b b' : Block) (k k' : Word),
    b.x.toNat % 2 ^ 32 = b'.x.toNat % 2 ^ 32 → b.y.toNat % 2 ^ 32 = b'.y.toNat % 2 ^ 32 →
    k.toNat % 2 ^ 32 = k'.toNat % 2 ^ 32 →
    (rfEnc .w32 b k = rfEnc .w32 b' k' ∧ rfDec .w32 b k = rfDec .w32 b' k') ∧
    BlockFits .w32 (rfEnc .w32 b k) ∧ BlockFits .w32 (rfDec .w32 b k)

/-! ### The variant table and the key scheduler -/

/-- R110, R111: VT_LOOKUP returns the row of the table for tags 0 to 4 and raises UNIMPLEMENTED_VARIANT for 5 to 7;
the key lengths are m · W/8. That raise in an operation run alone has the effect of `fail` (log 8, DEDUCED) and an entry
in the error history (log 3, DESIGN CHOICE) is the model's. -/
def Obligations.VariantTableLookup : Prop :=
  decode (.uop8 0x10#8) = .ok .vtLookup ∧
  ∀ s : State,
    (s.ports.tag.toNat ≤ 4 → ∃ row,
      exec .vtLookup s = .next { s with ports := { s.ports with row := some row } } ∧
      (s.ports.tag = 0#3 → row = ⟨.w32, 3, 26, 8⟩ ∧ keyLength row = 12) ∧
      (s.ports.tag = 1#3 → row = ⟨.w32, 4, 27, 8⟩ ∧ keyLength row = 16) ∧
      (s.ports.tag = 2#3 → row = ⟨.w64, 2, 32, 16⟩ ∧ keyLength row = 16) ∧
      (s.ports.tag = 3#3 → row = ⟨.w64, 3, 33, 16⟩ ∧ keyLength row = 24) ∧
      (s.ports.tag = 4#3 → row = ⟨.w64, 4, 34, 16⟩ ∧ keyLength row = 32)) ∧
    (4 < s.ports.tag.toNat → ∃ t, exec .vtLookup s = .next t ∧ FailedWith .unimplementedVariant s t)

/-- R142: KS_EXPAND as a trace of the running state: `st i` is (A, taps) before round i. RK[i] gets A before round
i, and A and the taps end as the loop of the block size leaves them (T rounds for B = 8, T − 1 for B = 16). -/
def Obligations.KeyExpansionFollowsTheLoop : Prop :=
  decode (.uop8 0x30#8) = .ok .ksExpand ∧
  ∀ (s : State) (row : VariantRow), vtLookup s.ports.tag.toNat = some row →
    s.ports.bytesIn.length = keyLength row →
    let kb := s.ports.bytesIn
    let n := row.width.bytes
    let last := if row.blockBytes = 8 then row.rounds else row.rounds - 1
    ∃ (t : State) (st : Nat → Sched), exec .ksExpand s = .next t ∧
      (st 0).a = wordAt row.width kb 0 ∧
      (st 0).taps = (List.range (row.keyWords - 1)).map (fun j => wordAt row.width kb ((j + 1) * n)) ∧
      (∀ i, let j := i % (row.keyWords - 1)
        let r := rfEnc row.width ⟨(st i).taps.getD j 0#64, (st i).a⟩ (BitVec.ofNat 64 i)
        (st (i + 1)).a = r.y ∧ (st (i + 1)).taps = (st i).taps.set j r.x) ∧
      (∀ i, i < row.rounds → t.rk[i]? = some (st i).a) ∧
      t.roundKeys row.rounds = (expandKey row kb).1 ∧
      t.work.a = (st last).a ∧
      (∀ j, j < row.keyWords - 1 → t.work.tap[j]? = (st last).taps[j]?) ∧
      (∀ j, row.keyWords - 1 ≤ j → t.work.tap[j]? = s.work.tap[j]?) ∧
      t.work.x = s.work.x ∧ t.work.y = s.work.y ∧ t.work.prev = s.work.prev ∧ t.ports = s.ports ∧
      t.keyValid = s.keyValid ∧ t.variant = s.variant ∧
      BytesKept s t ∧ HostSideKept s t ∧ OutcomeKept s t

/-- A key operand of any other length completes too, with free bytes for those no line drives (the model's choice,
log 10), and leaves the rest of the state alone. A tag without a row raises UNIMPLEMENTED_VARIANT in the look-up (R111);
that KS_EXPAND run alone then has the effect of `fail` (log 8, DEDUCED), with an entry in the error history (log 3,
DESIGN CHOICE), is the model's: R142 has no exceptions. -/
def Obligations.KeyExpansionAlwaysCompletes : Prop :=
  ∀ s : State,
    (s.ports.tag.toNat ≤ 4 → ∃ t, exec .ksExpand s = .next t ∧ t.ports = s.ports ∧
      t.keyValid = s.keyValid ∧ t.variant = s.variant ∧
      t.work.x = s.work.x ∧ t.work.y = s.work.y ∧ t.work.prev = s.work.prev ∧
      BytesKept s t ∧ HostSideKept s t ∧ OutcomeKept s t) ∧
    (4 < s.ports.tag.toNat → ∃ t, exec .ksExpand s = .next t ∧ FailedWith .unimplementedVariant s t)

/-- R145: the two loop shapes record the same T round keys, and the short shape ends one round further. -/
def Obligations.LoopShapesGiveTheSameSchedule : Prop :=
  ∀ (row : VariantRow) (kb : List Byte), 1 ≤ row.rounds →
    (expandShort row kb).1 = (expandLong row kb).1 ∧ (expandShort row kb).1.length = row.rounds ∧
    (expandShort row kb).2 = schedRound row (row.rounds - 1) (expandLong row kb).2

/-! ### The block engine -/

/-- R160: BE_ENC as a trace: T encrypt rounds, RK[0] first. X and Y hold the result, it is returned, and nothing else
changes but the index counters (log 9). -/
def Obligations.BlockEncryptionRunsAscendingRounds : Prop :=
  decode (.uop8 0x40#8) = .ok .beEnc ∧
  ∀ (s : State) (row : VariantRow), s.variantRow = some row →
    ∃ (t : State) (st : Nat → Block), exec .beEnc s = .next t ∧
      st 0 = ⟨s.ports.xIn, s.ports.yIn⟩ ∧
      (∀ i, i < row.rounds → ∃ k, s.rk[i]? = some k ∧ st (i + 1) = rfEnc row.width (st i) k) ∧
      st row.rounds = encBlock row.width (s.roundKeys row.rounds) (st 0) ∧
      t.work.x = (st row.rounds).x ∧ t.work.y = (st row.rounds).y ∧
      t.ports = { s.ports with xOut := (st row.rounds).x, yOut := (st row.rounds).y } ∧
      UopFrame s t ∧ WorkKeptButBlock s t

/-- R161: BE_DEC as a trace: T decrypt rounds, RK[T − 1] first. -/
def Obligations.BlockDecryptionRunsDescendingRounds : Prop :=
  decode (.uop8 0x41#8) = .ok .beDec ∧
  ∀ (s : State) (row : VariantRow), s.variantRow = some row →
    ∃ (t : State) (st : Nat → Block), exec .beDec s = .next t ∧
      st 0 = ⟨s.ports.xIn, s.ports.yIn⟩ ∧
      (∀ i, i < row.rounds →
        ∃ k, s.rk[row.rounds - 1 - i]? = some k ∧ st (i + 1) = rfDec row.width (st i) k) ∧
      st row.rounds = decBlock row.width (s.roundKeys row.rounds) (st 0) ∧
      t.work.x = (st row.rounds).x ∧ t.work.y = (st row.rounds).y ∧
      t.ports = { s.ports with xOut := (st row.rounds).x, yOut := (st row.rounds).y } ∧
      UopFrame s t ∧ WorkKeptButBlock s t

/-- R163: the two directions of the engine are inverse on every block, whatever the round keys. -/
def Obligations.EngineDirectionsAreInverse : Prop :=
  ∀ (w : Width) (rks : List Word) (b : Block), BlockFits w b →
    decBlock w rks (encBlock w rks b) = b ∧ encBlock w rks (decBlock w rks b) = b

/-! ### The mode drivers -/

/-- R181: ECB_ENC encrypts each block on its own; the result has the length of the buffer. -/
def Obligations.EcbEncryptsEachBlock : Prop :=
  decode (.uop8 0x50#8) = .ok .ecbEnc ∧
  ∀ (s : State) (row : VariantRow), s.variantRow = some row → Aligned row s.ports.bytesIn →
    let buf := s.ports.bytesIn
    ∃ (t : State) (out : List Byte), exec .ecbEnc s = .next t ∧
      t.ports = { s.ports with bytesOut := out } ∧ out = ecbEncBytes row (s.roundKeys row.rounds) buf ∧
      out.length = buf.length ∧
      (∀ j, j < buf.length / row.blockBytes → blockSlice row out j =
        blockBytesOf row.width (encBlock row.width (s.roundKeys row.rounds)
          (blockAt row.width buf (j * row.blockBytes)))) ∧
      UopFrame s t ∧ WorkKeptButBlock s t

/-- R182: ECB_DEC decrypts each block on its own. -/
def Obligations.EcbDecryptsEachBlock : Prop :=
  decode (.uop8 0x51#8) = .ok .ecbDec ∧
  ∀ (s : State) (row : VariantRow), s.variantRow = some row → Aligned row s.ports.bytesIn →
    let buf := s.ports.bytesIn
    ∃ (t : State) (out : List Byte), exec .ecbDec s = .next t ∧
      t.ports = { s.ports with bytesOut := out } ∧ out = ecbDecBytes row (s.roundKeys row.rounds) buf ∧
      out.length = buf.length ∧
      (∀ j, j < buf.length / row.blockBytes → blockSlice row out j =
        blockBytesOf row.width (decBlock row.width (s.roundKeys row.rounds)
          (blockAt row.width buf (j * row.blockBytes)))) ∧
      UopFrame s t ∧ WorkKeptButBlock s t

/-- R183: CBC_ENC encrypts each block XORed with the ciphertext block before it, the zero block before the first;
PREV ends as the last ciphertext block (the zero block if there is none). -/
def Obligations.CbcEncryptionChainsBlocks : Prop :=
  decode (.uop8 0x52#8) = .ok .cbcEnc ∧
  ∀ (s : State) (row : VariantRow), s.variantRow = some row → Aligned row s.ports.bytesIn →
    let buf := s.ports.bytesIn
    let count := buf.length / row.blockBytes
    ∃ (t : State) (out : List Byte), exec .cbcEnc s = .next t ∧
      t.ports = { s.ports with bytesOut := out } ∧ out = cbcEncBytes row (s.roundKeys row.rounds) buf ∧
      out.length = buf.length ∧
      (∀ j, j < count → blockSlice row out j =
        blockBytesOf row.width (encBlock row.width (s.roundKeys row.rounds)
          (blockAt row.width (xorBytes (blockSlice row buf j) (chained row out j)) 0))) ∧
      (∀ i, i < row.blockBytes → t.work.prev[i]? = (chained row out count)[i]?) ∧
      UopFrame s t ∧ t.work.a = s.work.a ∧ t.work.tap = s.work.tap

/-- R184: CBC_DEC decrypts each block and XORs it with the ciphertext block before it, the zero block before the
first; PREV ends as the last ciphertext block. -/
def Obligations.CbcDecryptionChainsBlocks : Prop :=
  decode (.uop8 0x53#8) = .ok .cbcDec ∧
  ∀ (s : State) (row : VariantRow), s.variantRow = some row → Aligned row s.ports.bytesIn →
    let buf := s.ports.bytesIn
    let count := buf.length / row.blockBytes
    ∃ (t : State) (out : List Byte), exec .cbcDec s = .next t ∧
      t.ports = { s.ports with bytesOut := out } ∧ out = cbcDecBytes row (s.roundKeys row.rounds) buf ∧
      out.length = buf.length ∧
      (∀ j, j < count → blockSlice row out j =
        xorBytes (blockBytesOf row.width (decBlock row.width (s.roundKeys row.rounds)
          (blockAt row.width (blockSlice row buf j) 0))) (chained row buf j)) ∧
      (∀ i, i < row.blockBytes → t.work.prev[i]? = (chained row buf count)[i]?) ∧
      UopFrame s t ∧ t.work.a = s.work.a ∧ t.work.tap = s.work.tap

/-- The four drivers on a buffer that is not block-aligned, which the dispatcher never hands over (R180): they
complete, with as many bytes as the buffer has, whose values are free (the model's choice, log 10). -/
def Obligations.UnalignedDriverBuffersComplete : Prop :=
  ∀ (i : Instr) (s : State) (row : VariantRow),
    (i = .ecbEnc ∨ i = .ecbDec ∨ i = .cbcEnc ∨ i = .cbcDec) →
    s.variantRow = some row → ¬ Aligned row s.ports.bytesIn →
    ∃ (t : State) (out : List Byte), exec i s = .next t ∧ t.ports = { s.ports with bytesOut := out } ∧
      out.length = s.ports.bytesIn.length ∧ UopFrame s t

/-- R187: decryption undoes encryption on every block-aligned buffer, in both modes, whatever the round keys. -/
def Obligations.ModeDriversRoundTrip : Prop :=
  ∀ (tag : Nat) (row : VariantRow) (rks : List Word) (buf : List Byte),
    vtLookup tag = some row → Aligned row buf →
    ecbDecBytes row rks (ecbEncBytes row rks buf) = buf ∧
    cbcDecBytes row rks (cbcEncBytes row rks buf) = buf

/-- R185: the bytewise XOR of two blocks is the word-wise XOR of the decoded blocks. -/
def Obligations.BytewiseXorIsWordwise : Prop :=
  ∀ (w : Width) (p q : List Byte), p.length = 2 * w.bytes → q.length = 2 * w.bytes →
    (blockAt w (xorBytes p q) 0).x = (blockAt w p 0).x ^^^ (blockAt w q 0).x ∧
    (blockAt w (xorBytes p q) 0).y = (blockAt w p 0).y ^^^ (blockAt w q 0).y

/-- R184, corner case: a corrupted ciphertext block j affects the plaintext blocks j and j + 1 only. -/
def Obligations.CbcCorruptionStaysLocal : Prop :=
  ∀ (tag : Nat) (row : VariantRow) (rks : List Word) (c c' : List Byte) (j : Nat),
    vtLookup tag = some row → Aligned row c → c'.length = c.length →
    (∀ m, m ≠ j → blockSlice row c' m = blockSlice row c m) →
    ∀ m, m < c.length / row.blockBytes → m ≠ j → m ≠ j + 1 →
      blockSlice row (cbcDecBytes row rks c') m = blockSlice row (cbcDecBytes row rks c) m

/-! ### The padder -/

/-- R200: PAD with CMD.PAD = 0 is the identity, else it appends p = B − (len mod B) bytes of value p. -/
def Obligations.PadAppendsPkcs7 : Prop :=
  decode (.uop8 0x60#8) = .ok .pad ∧
  ∀ (s : State) (row : VariantRow), s.variantRow = some row →
    let data := s.ports.bytesIn
    let B := row.blockBytes
    let p := B - data.length % B
    ∃ (t : State) (out : List Byte), exec .pad s = .next t ∧
      t.ports = { s.ports with bytesOut := out } ∧ out = padBytes B (Padding.ofBit (cmdPad s.cmd)) data ∧
      (s.cmd.getLsbD 12 = false → out = data) ∧
      (s.cmd.getLsbD 12 = true → out = data ++ List.replicate p (BitVec.ofNat 8 p) ∧ 1 ≤ p ∧ p ≤ B ∧
        (BitVec.ofNat 8 p).toNat = p ∧ out.length % B = 0 ∧
        data.length + 1 ≤ out.length ∧ out.length ≤ data.length + B) ∧
      UopFrame s t ∧ t.work = s.work

/-- R201: UNPAD with CMD.PAD = 0 is the identity; else an empty sequence raises EMPTY_UNPAD, a well-formed padding is
stripped, and any other data is returned unchanged, without an error. That EMPTY_UNPAD in an operation run alone has the
effect of `fail` (log 8, DEDUCED) and an entry in the error history (log 3, DESIGN CHOICE) is the model's. -/
def Obligations.UnpadIsLenient : Prop :=
  decode (.uop8 0x61#8) = .ok .unpad ∧
  ∀ (s : State) (row : VariantRow), s.variantRow = some row →
    let data := s.ports.bytesIn
    let B := row.blockBytes
    let returns := fun out : List Byte => ∃ t, exec .unpad s = .next t ∧
      t.ports = { s.ports with bytesOut := out } ∧ UopFrame s t ∧ t.work = s.work ∧
      unpadBytes B (Padding.ofBit (cmdPad s.cmd)) data = .ok out
    (s.cmd.getLsbD 12 = false → returns data) ∧
    (s.cmd.getLsbD 12 = true →
      (data = [] → ∃ t, exec .unpad s = .next t ∧ FailedWith .emptyUnpad s t) ∧
      (∀ p, data.getLast? = some p →
        let wellFormed := p.toNat ≤ B ∧ p.toNat ≤ data.length ∧
          ∀ i, data.length - p.toNat ≤ i → i < data.length → data[i]? = some p
        (wellFormed → returns (data.take (data.length - p.toNat))) ∧ (¬ wellFormed → returns data)))

/-- R205: unpadding a padded sequence gives it back, empty and block-aligned sequences among them. -/
def Obligations.PadUnpadRoundTrip : Prop :=
  ∀ (B : Nat) (en : Padding) (x : List Byte), B = 8 ∨ B = 16 → unpadBytes B en (padBytes B en x) = .ok x

/-! ### The block codec and byte order -/

/-- R10: LE is the weighted sum of the bytes, and toLE_n(v) is the one n-byte sequence whose value is v mod 2^(8n). -/
def Obligations.LittleEndianConversion : Prop :=
  (∀ s : List Byte, le s = ((List.range s.length).map fun i => (s[i]?.getD 0#8).toNat * 2 ^ (8 * i)).sum) ∧
  ∀ n v : Nat, (toLE n v).length = n ∧ le (toLE n v) = v % 2 ^ (8 * n) ∧
    ∀ s : List Byte, s.length = n → le s = v % 2 ^ (8 * n) → s = toLE n v

/-- R59: BLK_DECODE puts the lower-addressed half on y and the higher-addressed half on x, each little-endian. Where
off + 2n exceeds the operand's length, which R59 leaves to the callers, that it completes within the same frame is the
model's choice (log 10, DESIGN CHOICE). -/
def Obligations.BlockDecodeSplitsHalves : Prop :=
  decode (.uop8 0x70#8) = .ok .blkDecode ∧
  ∀ s : State,
    let n := s.ports.width.bytes
    let off := s.ports.off
    let data := s.ports.bytesIn
    ∃ t, exec .blkDecode s = .next t ∧
      (off + 2 * n ≤ data.length →
        t.ports.yOut.toNat = le (slice data off (off + n)) ∧
        t.ports.xOut.toNat = le (slice data (off + n) (off + 2 * n))) ∧
      t.ports = { s.ports with xOut := t.ports.xOut, yOut := t.ports.yOut } ∧
      UopFrame s t ∧ t.work = s.work

/-- R60: BLK_ENCODE writes y at the lower address, and it is the inverse of BLK_DECODE. -/
def Obligations.BlockEncodeInvertsDecode : Prop :=
  decode (.uop8 0x71#8) = .ok .blkEncode ∧
  (∀ s : State,
    let n := s.ports.width.bytes
    exec .blkEncode s = .next { s with ports := { s.ports with
      bytesOut := toLE n s.ports.yIn.toNat ++ toLE n s.ports.xIn.toNat } }) ∧
  ∀ (w : Width) (data : List Byte) (off : Nat), off + 2 * w.bytes ≤ data.length →
    blockBytesOf w (blockAt w data off) = slice data off (off + 2 * w.bytes)

/-- R61: block k of a Speck128 buffer seen through the bus: y is the words at +0 and +4, x those at +8 and +12, low
half first; of a Speck64 buffer the word at +0 is y and the one at +4 is x. -/
def Obligations.BusViewOfBlocks : Prop :=
  ∀ (s : State) (k : Nat), Config.CapLegal s.ibufBytes →
    (16 * k + 16 ≤ s.ibufBytes →
      let b := blockAt .w64 (s.memRead 0 s.ibufBytes) (16 * k)
      s.busRead (0x10000 + 16 * k) = b.y.extractLsb' 0 32 ∧ s.busRead (0x10000 + 16 * k + 4) = b.y.extractLsb' 32 32 ∧
      s.busRead (0x10000 + 16 * k + 8) = b.x.extractLsb' 0 32 ∧
      s.busRead (0x10000 + 16 * k + 12) = b.x.extractLsb' 32 32) ∧
    (8 * k + 8 ≤ s.ibufBytes →
      let b := blockAt .w32 (s.memRead 0 s.ibufBytes) (8 * k)
      s.busRead (0x10000 + 8 * k) = b.y.extractLsb' 0 32 ∧ s.busRead (0x10000 + 8 * k + 4) = b.x.extractLsb' 0 32)

/-- U8: where VARIANT has no row, ENCRYPT and DECRYPT report UNIMPLEMENTED_VARIANT once the checks before the look-up
pass. That the internal operations which look VARIANT up do so too is the model's inference (log 12, DEDUCED), with the
effect of `fail` (log 8, DEDUCED) and an entry in the error history (log 3). No run reaches such a state. -/
def Obligations.UnknownVariantIsReported : Prop :=
  ∀ (i : Instr) (s : State), 4 < s.variant.toNat →
    (i = .beEnc ∨ i = .beDec ∨ i = .ecbEnc ∨ i = .ecbDec ∨ i = .cbcEnc ∨ i = .cbcDec ∨ i = .pad ∨ i = .unpad ∨
      ((∃ mode pad, i = .encrypt mode pad ∨ i = .decrypt mode pad) ∧
        s.keyValid = true ∧ s.ilen.toNat ≤ s.ibufBytes)) →
    ∃ t, exec i s = .next t ∧ FailedWith .unimplementedVariant s t

/-! ### The host commands -/

/-- R222: CONSTRUCT: its two errors in order, and the cipher object it builds from IBUF[0 .. ILEN); no buffer byte
changes. -/
def Obligations.ConstructBuildsCipherObject : Prop :=
  (∀ var, var < 8 → decode (.cmd32 (BitVec.ofNat 32 (0x1 + 0x10 * var))) = .ok (.construct var)) ∧
  ∀ (var : Nat) (s : State),
    (4 < var → ∃ t, exec (.construct var) s = .next t ∧ FailedWith .unimplementedVariant s t) ∧
    (var ≤ 4 → ∃ row, vtLookup var = some row ∧
      (s.ilen.toNat ≠ row.keyWords * (row.width.bits / 8) →
        ∃ t, exec (.construct var) s = .next t ∧ FailedWith .invalidKeyLength s t) ∧
      (s.ilen.toNat = row.keyWords * (row.width.bits / 8) → ∀ kb, OperandIs kb s →
        ∃ t, exec (.construct var) s = .next t ∧ EndedWith .ok 0 s t ∧
          t.keyValid = true ∧ t.variant.toNat = var ∧ t.roundKeys row.rounds = (expandKey row kb).1 ∧
          BytesKept s t ∧ HostSideKept s t ∧ t.ports = s.ports))

/-- R223: ENCRYPT: its errors in order, and the result it writes; OLEN is ILEN without padding and
ILEN + B − (ILEN mod B) with PKCS7. -/
def Obligations.EncryptWritesCiphertext : Prop :=
  (∀ mode, mode < 4 → decode (.cmd32 (BitVec.ofNat 32 (0x2 + 0x100 * mode))) = .ok (.encrypt mode .none) ∧
    decode (.cmd32 (BitVec.ofNat 32 (0x1002 + 0x100 * mode))) = .ok (.encrypt mode .pkcs7)) ∧
  ∀ (mode : Nat) (pad : Padding) (s : State), Config.CapLegal s.ibufBytes →
    let fails := fun code => ∃ t, exec (.encrypt mode pad) s = .next t ∧ FailedWith code s t
    let len := s.ilen.toNat
    (s.keyValid = false → fails .noKey) ∧
    (s.keyValid = true → s.ibufBytes < len → fails .lengthOverflow) ∧
    ∀ row, s.keyValid = true → len ≤ s.ibufBytes → s.variantRow = some row →
      let B := row.blockBytes
      (pad = .none → len % B ≠ 0 → fails .unalignedInput) ∧
      ((pad = .none → len % B = 0) →
        (2 ≤ mode → fails .unimplementedMode) ∧
        ∀ p, OperandIs p s →
          let d := padBytes B pad p
          let rks := s.roundKeys row.rounds
          let writes := fun out : List Byte => ∃ t, exec (.encrypt mode pad) s = .next t ∧
            EndedWith .ok out.length s t ∧ ResultIs out t ∧ DataCommandFrame out.length s t ∧
            out.length = (match pad with | .none => len | .pkcs7 => len + B - len % B)
          (mode = 0 → writes (ecbEncBytes row rks d)) ∧ (mode = 1 → writes (cbcEncBytes row rks d)))

/-- R224: DECRYPT: its errors in order (EMPTY_UNPAD last), and the result it writes, unpadded as UNPAD says. -/
def Obligations.DecryptWritesPlaintext : Prop :=
  (∀ mode, mode < 4 → decode (.cmd32 (BitVec.ofNat 32 (0x3 + 0x100 * mode))) = .ok (.decrypt mode .none) ∧
    decode (.cmd32 (BitVec.ofNat 32 (0x1003 + 0x100 * mode))) = .ok (.decrypt mode .pkcs7)) ∧
  ∀ (mode : Nat) (pad : Padding) (s : State), Config.CapLegal s.ibufBytes →
    let fails := fun code => ∃ t, exec (.decrypt mode pad) s = .next t ∧ FailedWith code s t
    let len := s.ilen.toNat
    (s.keyValid = false → fails .noKey) ∧
    (s.keyValid = true → s.ibufBytes < len → fails .lengthOverflow) ∧
    ∀ row, s.keyValid = true → len ≤ s.ibufBytes → s.variantRow = some row →
      let B := row.blockBytes
      (len % B ≠ 0 → fails .unalignedInput) ∧
      (len % B = 0 →
        (2 ≤ mode → fails .unimplementedMode) ∧
        (mode ≤ 1 → pad = .pkcs7 → len = 0 → fails .emptyUnpad) ∧
        ∀ c, OperandIs c s →
          let rks := s.roundKeys row.rounds
          let writes := fun q : List Byte => (pad = .none ∨ len ≠ 0) →
            ∃ t out, exec (.decrypt mode pad) s = .next t ∧ unpadBytes B pad q = .ok out ∧
              EndedWith .ok out.length s t ∧ ResultIs out t ∧ DataCommandFrame out.length s t ∧
              (pad = .none → out = q ∧ out.length = len)
          (mode = 0 → writes (ecbDecBytes row rks c)) ∧ (mode = 1 → writes (cbcDecBytes row rks c)))

/-- R226: after ENCRYPT, with the result copied into IBUF and ILEN = OLEN, DECRYPT with the same mode and padding
gives the plaintext back. -/
def Obligations.DecryptUndoesEncrypt : Prop :=
  ∀ (mode : Nat) (pad : Padding) (s t u : State) (p : List Byte),
    Config.CapLegal s.ibufBytes → s.keyValid = true → s.variant.toNat ≤ 4 → mode ≤ 1 → OperandIs p s →
    exec (.encrypt mode pad) s = .next t → t.err = .ok → t.olen.toNat ≤ s.ibufBytes →
    KeyKept t u → u.bufcap = t.bufcap → u.ilen = t.olen →
    (∀ i, i < t.olen.toNat → u.byteAt (ibufBase + i) = t.byteAt (obufBase + i)) →
    ∃ v, exec (.decrypt mode pad) u = .next v ∧ EndedWith .ok p.length u v ∧ ResultIs p v

/-- R227: ENCRYPT and DECRYPT leave the cipher object alone, and their outcome depends only on it, the command's
fields, ILEN, the capacity and IBUF[0 .. ILEN). -/
def Obligations.DataCommandsDependOnKeyAndInputOnly : Prop :=
  ∀ (i : Instr) (mode : Nat) (pad : Padding) (s s' : State), (i = .encrypt mode pad ∨ i = .decrypt mode pad) →
    KeyKept s s' → s'.ilen = s.ilen → s'.bufcap = s.bufcap →
    (∀ j, j < s.ilen.toNat → s'.byteAt (ibufBase + j) = s.byteAt (ibufBase + j)) →
    ∃ t t', exec i s = .next t ∧ exec i s' = .next t' ∧ KeyKept s t ∧ KeyKept s' t' ∧
      t'.err = t.err ∧ t'.olen = t.olen ∧
      (t.err = .ok → Config.CapLegal s.ibufBytes →
        ∀ j, j < t.olen.toNat → t'.byteAt (obufBase + j) = t.byteAt (obufBase + j))

/-- R64: running the same data command again with IBUF and ILEN unchanged gives the same outcome and changes no
buffer byte. -/
def Obligations.RepeatedDataCommandGivesSameResult : Prop :=
  ∀ (i : Instr) (mode : Nat) (pad : Padding) (s t : State), (i = .encrypt mode pad ∨ i = .decrypt mode pad) →
    Config.CapLegal s.ibufBytes → exec i s = .next t →
    ∃ u, exec i t = .next u ∧ u.err = t.err ∧ u.olen = t.olen ∧ BytesKept t u ∧ KeyKept t u

/-- R252: whatever command a write to CMD runs, if it fails then CMD holds the word, ERR the code, OLEN 0, and
nothing else changed. -/
def Obligations.FailedCommandChangesNothingElse : Prop :=
  ∀ (s t : State) (v : BusWord) (rest : List HostInput), s.uop = none → s.host = .write 32 0 v :: rest →
    step s = .next t → t.err ≠ .ok → FailedWith t.err { s with cmd := v, host := rest } t

/-- U6: a command appends its code to the error history, and no other step changes the history. -/
def Obligations.ErrorHistoryRecordsEveryCommand : Prop :=
  ∀ (s t : State), s.uop = none → step s = .next t →
    ((∃ v rest, s.host = .write 32 0 v :: rest) → t.errLog = t.err :: s.errLog) ∧
    ((∀ v rest, s.host ≠ .write 32 0 v :: rest) → t.errLog = s.errLog)

/-- No instruction writes CMD, ILEN, BUFCAP or IBUF (R30, R33, R57); `exec` starts after CMD was stored. -/
def Obligations.InstructionsLeaveInputAlone : Prop :=
  ∀ (i : Instr) (s t : State), Config.CapLegal s.ibufBytes → exec i s = .next t →
    HostSideKept s t ∧ ∀ j, j < s.ibufBytes → t.byteAt (ibufBase + j) = s.byteAt (ibufBase + j)

/-- R24: what the working registers and the ports hold when a command starts is irrelevant: the commands end in
states that agree in everything else. -/
def Obligations.WorkingRegistersAreIrrelevant : Prop :=
  ∀ (i : Instr) (s : State) (wk : Work) (po : Ports),
    ((∃ var, i = .construct var) ∨ (∃ mode pad, i = .encrypt mode pad ∨ i = .decrypt mode pad)) →
    ∃ t t', exec i s = .next t ∧ exec i { s with work := wk, ports := po } = .next t' ∧
      t' = { t with work := t'.work, ports := po }

/-! ### The host window -/

/-- R51, R53, R55, R56: what each offset of the address map returns to a host read; a read changes nothing else and
takes the next input. -/
def Obligations.ReadsFollowTheAddressMap : Prop :=
  ∀ (s : State) (off : Nat) (rest : List HostInput), s.uop = none → s.host = .read 32 off :: rest → off % 4 = 0 →
    ∃ v, step s = .next { s with host := rest, hostReads := v :: s.hostReads } ∧
      (off = 0x00000 → v = s.cmd) ∧ (off = 0x00004 → v = s.statusWord) ∧ (off = 0x00008 → v = s.ilen) ∧
      (off = 0x0000C → v = s.olen) ∧ (off = 0x00010 → v = s.bufcap) ∧
      (0x10000 ≤ off ∧ off < 0x10000 + s.ibufBytes ∨ 0x20000 ≤ off ∧ off < 0x20000 + (s.ibufBytes + 16) →
        ∀ k, k < 4 → v.extractLsb' (8 * k) 8 = s.byteAt (off + k))

/-- R54: reserved and outside offsets read as 0 and ignore writes, and so do writes to STATUS, OLEN, BUFCAP and
OBUF. -/
def Obligations.ReservedOffsetsAreRazWi : Prop :=
  ∀ (s : State) (off : Nat) (rest : List HostInput), s.uop = none → off % 4 = 0 →
    (s.host = .read 32 off :: rest → 0x00014 ≤ off →
      ¬(0x10000 ≤ off ∧ off < 0x10000 + s.ibufBytes) → ¬(0x20000 ≤ off ∧ off < 0x20000 + (s.ibufBytes + 16)) →
      step s = .next { s with host := rest, hostReads := 0#32 :: s.hostReads }) ∧
    (∀ v, s.host = .write 32 off v :: rest → off ≠ 0x00000 → off ≠ 0x00008 →
      ¬(0x10000 ≤ off ∧ off < 0x10000 + s.ibufBytes) →
      step s = .next { s with host := rest })

/-- R55: a write to IBUF puts byte lane t at byte j + t and changes nothing else; a read returns the four bytes
little-endian. -/
def Obligations.IbufAccessUsesLittleEndianLanes : Prop :=
  ∀ (s : State) (off : Nat) (rest : List HostInput), s.uop = none → off % 4 = 0 →
    0x10000 ≤ off → off < 0x10000 + s.ibufBytes →
    (∀ v, s.host = .write 32 off v :: rest → ∃ t, step s = .next t ∧ t = { s with host := rest, mem := t.mem } ∧
      (∀ k, k < 4 → t.byteAt (off + k) = v.extractLsb' (8 * k) 8) ∧
      (∀ a, a < off ∨ off + 4 ≤ a → t.byteAt a = s.byteAt a)) ∧
    (s.host = .read 32 off :: rest → step s = .next { s with
      host := rest
      hostReads := BitVec.ofNat 32
        (le [s.byteAt off, s.byteAt (off + 1), s.byteAt (off + 2), s.byteAt (off + 3)]) :: s.hostReads })

/-- R30, R64, R66 (d): a write to ILEN stores all 32 bits and changes nothing else, and a read returns the value of the
most recent write, for ILEN and for every word of IBUF. -/
def Obligations.ReadReturnsLatestWrite : Prop :=
  (∀ (s : State) (v : BusWord) (rest : List HostInput), s.uop = none → s.host = .write 32 0x00008 v :: rest →
    step s = .next { s with host := rest, ilen := v }) ∧
  ∀ (s : State) (off : Nat) (v : BusWord) (rest : List HostInput), s.uop = none →
    s.host = .write 32 off v :: .read 32 off :: rest →
    (off = 0x00008 ∨ (off % 4 = 0 ∧ 0x10000 ≤ off ∧ off < 0x10000 + s.ibufBytes)) →
    ∃ t u, step s = .next t ∧ step t = .next u ∧ u.hostReads = v :: s.hostReads

/-- R29, R250: the numbers of the status codes, and the fields of STATUS, each in its bits, with the reserved bits 0;
VARIANT reads as 0 while KEY_VALID = 0. -/
def Obligations.StatusFieldsStandInTheirBits : Prop :=
  (ErrCode.ok.code = 0#4 ∧ ErrCode.invalidKeyLength.code = 1#4 ∧ ErrCode.unalignedInput.code = 2#4 ∧
    ErrCode.unimplementedMode.code = 3#4 ∧ ErrCode.unimplementedVariant.code = 4#4 ∧ ErrCode.noKey.code = 5#4 ∧
    ErrCode.illegalCommand.code = 6#4 ∧ ErrCode.lengthOverflow.code = 7#4 ∧ ErrCode.emptyUnpad.code = 8#4) ∧
  ∀ s : State,
    s.statusWord.extractLsb' 0 4 = s.err.code ∧ s.err.code.toNat ≤ 8 ∧ s.statusWord.extractLsb' 4 4 = 0#4 ∧
    s.statusWord.getLsbD 8 = s.keyValid ∧ s.statusWord.extractLsb' 9 3 = 0#3 ∧
    (s.keyValid = true → s.statusWord.extractLsb' 12 3 = s.variant) ∧
    (s.keyValid = false → s.statusWord.extractLsb' 12 3 = 0#3) ∧ s.statusWord.extractLsb' 15 17 = 0#17

/-! ### Reset -/

/-- R280: `rst` takes CMD, STATUS, ILEN, OLEN, KEY_VALID and VARIANT to 0, leaves no buffer byte written, keeps BUFCAP,
and acts as one input of its own. (That the host's inputs and what it has read stay is the model's choice, log 13.) -/
def Obligations.RstRestoresResetValues : Prop :=
  ∀ (s : State) (rest : List HostInput), s.uop = none → s.host = .rst :: rest →
    ∃ t, step s = .next t ∧ t.cmd = 0#32 ∧ t.statusWord = 0#32 ∧ t.err = .ok ∧ t.ilen = 0#32 ∧ t.olen = 0#32 ∧
      t.keyValid = false ∧ t.variant = 0#3 ∧ t.bufcap = s.bufcap ∧ t.uop = none ∧
      (∀ a, Memory.lookup t.mem a = none) ∧ t.host = rest ∧ t.hostReads = s.hostReads

/-- R37: the state right after reset: CMD, STATUS, ILEN and OLEN 0, no cipher object, VARIANT 0, BUFCAP the capacity,
no buffer byte written. -/
def Obligations.ResetStateIsAsListed : Prop :=
  (∀ (cap : BusWord) (epoch draws : Nat),
    let s := State.powerOn cap epoch draws
    s.cmd = 0#32 ∧ s.statusWord = 0#32 ∧ s.ilen = 0#32 ∧ s.olen = 0#32 ∧ s.bufcap = cap ∧ s.keyValid = false ∧
      s.variant = 0#3 ∧ ∀ a, Memory.lookup s.mem a = none) ∧
  State.reset = State.powerOn Config.ibufBytes 0 0

/-- R281: after reset no cipher object exists; without one ENCRYPT and DECRYPT report NO_KEY; and one comes to exist
only by a CONSTRUCT that succeeds. -/
def Obligations.NoKeyUntilConstructSucceeds : Prop :=
  State.reset.keyValid = false ∧ (∀ s, (assertReset s).keyValid = false) ∧
  (∀ (s : State) (mode : Nat) (pad : Padding), s.keyValid = false →
    (∃ t, exec (.encrypt mode pad) s = .next t ∧ FailedWith .noKey s t) ∧
    (∃ t, exec (.decrypt mode pad) s = .next t ∧ FailedWith .noKey s t)) ∧
  ∀ s t : State, s.uop = none → s.keyValid = false → step s = .next t → t.keyValid = true →
    t.err = .ok ∧ ∃ v rest var, s.host = .write 32 0 v :: rest ∧ decode (.cmd32 v) = .ok (.construct var)

/-! ### Whole-machine rules -/

/-- R23, R146: only a CONSTRUCT that succeeds, or reset, changes any part of the cipher object. -/
def Obligations.OnlyConstructOrResetChangesTheKey : Prop :=
  ∀ s t : State, s.uop = none → step s = .next t → ¬ KeyKept s t →
    (∃ rest, s.host = .rst :: rest) ∨
    (t.err = .ok ∧ t.keyValid = true ∧
      ∃ v rest var, s.host = .write 32 0 v :: rest ∧ decode (.cmd32 v) = .ok (.construct var))

/-- R32: BUFCAP never changes. -/
def Obligations.BufcapNeverChanges : Prop :=
  ∀ s t : State, step s = .next t → t.bufcap = s.bufcap

/-- Every step keeps the invariant of a safe run: a legal capacity, idle select lines, memory in its canonical form and
inside the buffers, OLEN at most IBUF_BYTES + 16 (R31), and a cipher object whose VARIANT has a row and whose RK is
the expansion of a key (R23). -/
def Obligations.StepKeepsInvariant : Prop :=
  ∀ s t : State, Inv s → step s = .next t → Inv t

/-- The invariant holds right after reset (with the reference capacity, log 4). -/
def Obligations.ResetMeetsInvariant : Prop := Inv State.reset

/-- R36: the host learns of RK only through ENCRYPT and DECRYPT: two cores that look the same to the host and get the
same input still look the same after a step, and return the same values, unless the input is a data command. That they
show equal unwritten bytes again after `rst` is the model's choice: both count the same reset, and one count gives one
draw (log 5, log 13). -/
def Obligations.RoundKeysStayHidden : Prop :=
  ∀ s s' : State, HostSame s s' → s.uop = none → s'.uop = none → s'.host = s.host → s'.hostReads = s.hostReads →
    ¬ NextIsDataCommand s →
    (∃ t t', step s = .next t ∧ step s' = .next t' ∧ HostSame t t' ∧ t.uop = none ∧ t'.uop = none ∧
      t'.host = t.host ∧ t'.hostReads = t.hostReads) ∨
    (∃ r, step s = .refused r ∧ step s' = .refused r)
end

