-- ==== Sys2Proof/Laws/State.lean ====
section
/-!
SUPPORT. One lemma per field per named update of State: what each operation of Machine/ does to each field.
-/

namespace Sys2Proof.Machine

/-! ### fail -/

@[simp] theorem fail_cmd (c : ErrCode) (s : State) : (fail c s).cmd = s.cmd := rfl

@[simp] theorem fail_err (c : ErrCode) (s : State) : (fail c s).err = c := rfl

@[simp] theorem fail_keyValid (c : ErrCode) (s : State) : (fail c s).keyValid = s.keyValid := rfl

@[simp] theorem fail_variant (c : ErrCode) (s : State) : (fail c s).variant = s.variant := rfl

@[simp] theorem fail_ilen (c : ErrCode) (s : State) : (fail c s).ilen = s.ilen := rfl

@[simp] theorem fail_olen (c : ErrCode) (s : State) : (fail c s).olen = 0#32 := rfl

@[simp] theorem fail_bufcap (c : ErrCode) (s : State) : (fail c s).bufcap = s.bufcap := rfl

@[simp] theorem fail_rk (c : ErrCode) (s : State) : (fail c s).rk = s.rk := rfl

@[simp] theorem fail_mem (c : ErrCode) (s : State) : (fail c s).mem = s.mem := rfl

@[simp] theorem fail_work (c : ErrCode) (s : State) : (fail c s).work = s.work := rfl

@[simp] theorem fail_uop (c : ErrCode) (s : State) : (fail c s).uop = s.uop := rfl

@[simp] theorem fail_ports (c : ErrCode) (s : State) : (fail c s).ports = s.ports := rfl

@[simp] theorem fail_host (c : ErrCode) (s : State) : (fail c s).host = s.host := rfl

@[simp] theorem fail_hostReads (c : ErrCode) (s : State) : (fail c s).hostReads = s.hostReads := rfl

@[simp] theorem fail_errLog (c : ErrCode) (s : State) : (fail c s).errLog = c :: s.errLog := rfl

@[simp] theorem fail_epoch (c : ErrCode) (s : State) : (fail c s).epoch = s.epoch := rfl

@[simp] theorem fail_draws (c : ErrCode) (s : State) : (fail c s).draws = s.draws := rfl

/-! ### succeed -/

@[simp] theorem succeed_cmd (n : Nat) (s : State) : (succeed n s).cmd = s.cmd := rfl

@[simp] theorem succeed_err (n : Nat) (s : State) : (succeed n s).err = .ok := rfl

@[simp] theorem succeed_keyValid (n : Nat) (s : State) : (succeed n s).keyValid = s.keyValid := rfl

@[simp] theorem succeed_variant (n : Nat) (s : State) : (succeed n s).variant = s.variant := rfl

@[simp] theorem succeed_ilen (n : Nat) (s : State) : (succeed n s).ilen = s.ilen := rfl

@[simp] theorem succeed_olen (n : Nat) (s : State) : (succeed n s).olen = BitVec.ofNat 32 n := rfl

@[simp] theorem succeed_bufcap (n : Nat) (s : State) : (succeed n s).bufcap = s.bufcap := rfl

@[simp] theorem succeed_rk (n : Nat) (s : State) : (succeed n s).rk = s.rk := rfl

@[simp] theorem succeed_mem (n : Nat) (s : State) : (succeed n s).mem = s.mem := rfl

@[simp] theorem succeed_work (n : Nat) (s : State) : (succeed n s).work = s.work := rfl

@[simp] theorem succeed_uop (n : Nat) (s : State) : (succeed n s).uop = s.uop := rfl

@[simp] theorem succeed_ports (n : Nat) (s : State) : (succeed n s).ports = s.ports := rfl

@[simp] theorem succeed_host (n : Nat) (s : State) : (succeed n s).host = s.host := rfl

@[simp] theorem succeed_hostReads (n : Nat) (s : State) : (succeed n s).hostReads = s.hostReads := rfl

@[simp] theorem succeed_errLog (n : Nat) (s : State) : (succeed n s).errLog = .ok :: s.errLog := rfl

@[simp] theorem succeed_epoch (n : Nat) (s : State) : (succeed n s).epoch = s.epoch := rfl

@[simp] theorem succeed_draws (n : Nat) (s : State) : (succeed n s).draws = s.draws := rfl

/-! ### memWrite -/

@[simp] theorem memWrite_cmd (s : State) (a : Nat) (v : List Byte) : (s.memWrite a v).cmd = s.cmd := rfl

@[simp] theorem memWrite_err (s : State) (a : Nat) (v : List Byte) : (s.memWrite a v).err = s.err := rfl

@[simp] theorem memWrite_keyValid (s : State) (a : Nat) (v : List Byte) : (s.memWrite a v).keyValid = s.keyValid := rfl

@[simp] theorem memWrite_variant (s : State) (a : Nat) (v : List Byte) : (s.memWrite a v).variant = s.variant := rfl

@[simp] theorem memWrite_ilen (s : State) (a : Nat) (v : List Byte) : (s.memWrite a v).ilen = s.ilen := rfl

@[simp] theorem memWrite_olen (s : State) (a : Nat) (v : List Byte) : (s.memWrite a v).olen = s.olen := rfl

@[simp] theorem memWrite_bufcap (s : State) (a : Nat) (v : List Byte) : (s.memWrite a v).bufcap = s.bufcap := rfl

@[simp] theorem memWrite_rk (s : State) (a : Nat) (v : List Byte) : (s.memWrite a v).rk = s.rk := rfl

@[simp] theorem memWrite_mem (s : State) (a : Nat) (v : List Byte) : (s.memWrite a v).mem = Memory.writeBytes s.mem (obufBase + a) v := rfl

@[simp] theorem memWrite_work (s : State) (a : Nat) (v : List Byte) : (s.memWrite a v).work = s.work := rfl

@[simp] theorem memWrite_uop (s : State) (a : Nat) (v : List Byte) : (s.memWrite a v).uop = s.uop := rfl

@[simp] theorem memWrite_ports (s : State) (a : Nat) (v : List Byte) : (s.memWrite a v).ports = s.ports := rfl

@[simp] theorem memWrite_host (s : State) (a : Nat) (v : List Byte) : (s.memWrite a v).host = s.host := rfl

@[simp] theorem memWrite_hostReads (s : State) (a : Nat) (v : List Byte) : (s.memWrite a v).hostReads = s.hostReads := rfl

@[simp] theorem memWrite_errLog (s : State) (a : Nat) (v : List Byte) : (s.memWrite a v).errLog = s.errLog := rfl

@[simp] theorem memWrite_epoch (s : State) (a : Nat) (v : List Byte) : (s.memWrite a v).epoch = s.epoch := rfl

@[simp] theorem memWrite_draws (s : State) (a : Nat) (v : List Byte) : (s.memWrite a v).draws = s.draws := rfl

/-! ### releaseWork -/

@[simp] theorem releaseWork_cmd (s : State) : s.releaseWork.cmd = s.cmd := rfl

@[simp] theorem releaseWork_err (s : State) : s.releaseWork.err = s.err := rfl

@[simp] theorem releaseWork_keyValid (s : State) : s.releaseWork.keyValid = s.keyValid := rfl

@[simp] theorem releaseWork_variant (s : State) : s.releaseWork.variant = s.variant := rfl

@[simp] theorem releaseWork_ilen (s : State) : s.releaseWork.ilen = s.ilen := rfl

@[simp] theorem releaseWork_olen (s : State) : s.releaseWork.olen = s.olen := rfl

@[simp] theorem releaseWork_bufcap (s : State) : s.releaseWork.bufcap = s.bufcap := rfl

@[simp] theorem releaseWork_rk (s : State) : s.releaseWork.rk = s.rk := rfl

@[simp] theorem releaseWork_mem (s : State) : s.releaseWork.mem = s.mem := rfl

@[simp] theorem releaseWork_work (s : State) : s.releaseWork.work = Work.free s.draws := rfl

@[simp] theorem releaseWork_uop (s : State) : s.releaseWork.uop = s.uop := rfl

@[simp] theorem releaseWork_ports (s : State) : s.releaseWork.ports = s.ports := rfl

@[simp] theorem releaseWork_host (s : State) : s.releaseWork.host = s.host := rfl

@[simp] theorem releaseWork_hostReads (s : State) : s.releaseWork.hostReads = s.hostReads := rfl

@[simp] theorem releaseWork_errLog (s : State) : s.releaseWork.errLog = s.errLog := rfl

@[simp] theorem releaseWork_epoch (s : State) : s.releaseWork.epoch = s.epoch := rfl

@[simp] theorem releaseWork_draws (s : State) : s.releaseWork.draws = s.draws + 1 := rfl

/-! ### releaseCounters -/

@[simp] theorem releaseCounters_cmd (s : State) : s.releaseCounters.cmd = s.cmd := rfl

@[simp] theorem releaseCounters_err (s : State) : s.releaseCounters.err = s.err := rfl

@[simp] theorem releaseCounters_keyValid (s : State) : s.releaseCounters.keyValid = s.keyValid := rfl

@[simp] theorem releaseCounters_variant (s : State) : s.releaseCounters.variant = s.variant := rfl

@[simp] theorem releaseCounters_ilen (s : State) : s.releaseCounters.ilen = s.ilen := rfl

@[simp] theorem releaseCounters_olen (s : State) : s.releaseCounters.olen = s.olen := rfl

@[simp] theorem releaseCounters_bufcap (s : State) : s.releaseCounters.bufcap = s.bufcap := rfl

@[simp] theorem releaseCounters_rk (s : State) : s.releaseCounters.rk = s.rk := rfl

@[simp] theorem releaseCounters_mem (s : State) : s.releaseCounters.mem = s.mem := rfl

@[simp] theorem releaseCounters_work_x (s : State) : s.releaseCounters.work.x = s.work.x := rfl

@[simp] theorem releaseCounters_work_y (s : State) : s.releaseCounters.work.y = s.work.y := rfl

@[simp] theorem releaseCounters_work_prev (s : State) : s.releaseCounters.work.prev = s.work.prev := rfl

@[simp] theorem releaseCounters_work_a (s : State) : s.releaseCounters.work.a = s.work.a := rfl

@[simp] theorem releaseCounters_work_tap (s : State) : s.releaseCounters.work.tap = s.work.tap := rfl

@[simp] theorem releaseCounters_uop (s : State) : s.releaseCounters.uop = s.uop := rfl

@[simp] theorem releaseCounters_ports (s : State) : s.releaseCounters.ports = s.ports := rfl

@[simp] theorem releaseCounters_host (s : State) : s.releaseCounters.host = s.host := rfl

@[simp] theorem releaseCounters_hostReads (s : State) : s.releaseCounters.hostReads = s.hostReads := rfl

@[simp] theorem releaseCounters_errLog (s : State) : s.releaseCounters.errLog = s.errLog := rfl

@[simp] theorem releaseCounters_epoch (s : State) : s.releaseCounters.epoch = s.epoch := rfl

@[simp] theorem releaseCounters_draws (s : State) : s.releaseCounters.draws = s.draws + 1 := rfl

/-! ### installKey -/

@[simp] theorem installKey_cmd (s : State) (v : Nat) (k : List Word) : (s.installKey v k).cmd = s.cmd := rfl

@[simp] theorem installKey_err (s : State) (v : Nat) (k : List Word) : (s.installKey v k).err = s.err := rfl

@[simp] theorem installKey_keyValid (s : State) (v : Nat) (k : List Word) : (s.installKey v k).keyValid = true := rfl

@[simp] theorem installKey_variant (s : State) (v : Nat) (k : List Word) : (s.installKey v k).variant = BitVec.ofNat 3 v := rfl

@[simp] theorem installKey_ilen (s : State) (v : Nat) (k : List Word) : (s.installKey v k).ilen = s.ilen := rfl

@[simp] theorem installKey_olen (s : State) (v : Nat) (k : List Word) : (s.installKey v k).olen = s.olen := rfl

@[simp] theorem installKey_bufcap (s : State) (v : Nat) (k : List Word) : (s.installKey v k).bufcap = s.bufcap := rfl

@[simp] theorem installKey_rk (s : State) (v : Nat) (k : List Word) : (s.installKey v k).rk = rkFileOf k s.draws := rfl

@[simp] theorem installKey_mem (s : State) (v : Nat) (k : List Word) : (s.installKey v k).mem = s.mem := rfl

@[simp] theorem installKey_work (s : State) (v : Nat) (k : List Word) : (s.installKey v k).work = s.work := rfl

@[simp] theorem installKey_uop (s : State) (v : Nat) (k : List Word) : (s.installKey v k).uop = s.uop := rfl

@[simp] theorem installKey_ports (s : State) (v : Nat) (k : List Word) : (s.installKey v k).ports = s.ports := rfl

@[simp] theorem installKey_host (s : State) (v : Nat) (k : List Word) : (s.installKey v k).host = s.host := rfl

@[simp] theorem installKey_hostReads (s : State) (v : Nat) (k : List Word) : (s.installKey v k).hostReads = s.hostReads := rfl

@[simp] theorem installKey_errLog (s : State) (v : Nat) (k : List Word) : (s.installKey v k).errLog = s.errLog := rfl

@[simp] theorem installKey_epoch (s : State) (v : Nat) (k : List Word) : (s.installKey v k).epoch = s.epoch := rfl

@[simp] theorem installKey_draws (s : State) (v : Nat) (k : List Word) : (s.installKey v k).draws = s.draws := rfl

/-! ### driveBlock -/

@[simp] theorem driveBlock_cmd (s : State) (b : Block) : (s.driveBlock b).cmd = s.cmd := rfl

@[simp] theorem driveBlock_err (s : State) (b : Block) : (s.driveBlock b).err = s.err := rfl

@[simp] theorem driveBlock_keyValid (s : State) (b : Block) : (s.driveBlock b).keyValid = s.keyValid := rfl

@[simp] theorem driveBlock_variant (s : State) (b : Block) : (s.driveBlock b).variant = s.variant := rfl

@[simp] theorem driveBlock_ilen (s : State) (b : Block) : (s.driveBlock b).ilen = s.ilen := rfl

@[simp] theorem driveBlock_olen (s : State) (b : Block) : (s.driveBlock b).olen = s.olen := rfl

@[simp] theorem driveBlock_bufcap (s : State) (b : Block) : (s.driveBlock b).bufcap = s.bufcap := rfl

@[simp] theorem driveBlock_rk (s : State) (b : Block) : (s.driveBlock b).rk = s.rk := rfl

@[simp] theorem driveBlock_mem (s : State) (b : Block) : (s.driveBlock b).mem = s.mem := rfl

@[simp] theorem driveBlock_work (s : State) (b : Block) : (s.driveBlock b).work = s.work := rfl

@[simp] theorem driveBlock_uop (s : State) (b : Block) : (s.driveBlock b).uop = s.uop := rfl

@[simp] theorem driveBlock_ports (s : State) (b : Block) : (s.driveBlock b).ports = { s.ports with xOut := b.x, yOut := b.y } := rfl

@[simp] theorem driveBlock_host (s : State) (b : Block) : (s.driveBlock b).host = s.host := rfl

@[simp] theorem driveBlock_hostReads (s : State) (b : Block) : (s.driveBlock b).hostReads = s.hostReads := rfl

@[simp] theorem driveBlock_errLog (s : State) (b : Block) : (s.driveBlock b).errLog = s.errLog := rfl

@[simp] theorem driveBlock_epoch (s : State) (b : Block) : (s.driveBlock b).epoch = s.epoch := rfl

@[simp] theorem driveBlock_draws (s : State) (b : Block) : (s.driveBlock b).draws = s.draws := rfl

/-! ### hostRead -/

@[simp] theorem hostRead_cmd (off : Nat) (s : State) : (hostRead off s).cmd = s.cmd := rfl

@[simp] theorem hostRead_err (off : Nat) (s : State) : (hostRead off s).err = s.err := rfl

@[simp] theorem hostRead_keyValid (off : Nat) (s : State) : (hostRead off s).keyValid = s.keyValid := rfl

@[simp] theorem hostRead_variant (off : Nat) (s : State) : (hostRead off s).variant = s.variant := rfl

@[simp] theorem hostRead_ilen (off : Nat) (s : State) : (hostRead off s).ilen = s.ilen := rfl

@[simp] theorem hostRead_olen (off : Nat) (s : State) : (hostRead off s).olen = s.olen := rfl

@[simp] theorem hostRead_bufcap (off : Nat) (s : State) : (hostRead off s).bufcap = s.bufcap := rfl

@[simp] theorem hostRead_rk (off : Nat) (s : State) : (hostRead off s).rk = s.rk := rfl

@[simp] theorem hostRead_mem (off : Nat) (s : State) : (hostRead off s).mem = s.mem := rfl

@[simp] theorem hostRead_work (off : Nat) (s : State) : (hostRead off s).work = s.work := rfl

@[simp] theorem hostRead_uop (off : Nat) (s : State) : (hostRead off s).uop = s.uop := rfl

@[simp] theorem hostRead_ports (off : Nat) (s : State) : (hostRead off s).ports = s.ports := rfl

@[simp] theorem hostRead_host (off : Nat) (s : State) : (hostRead off s).host = s.host := rfl

@[simp] theorem hostRead_hostReads (off : Nat) (s : State) : (hostRead off s).hostReads = s.busRead off :: s.hostReads := rfl

@[simp] theorem hostRead_errLog (off : Nat) (s : State) : (hostRead off s).errLog = s.errLog := rfl

@[simp] theorem hostRead_epoch (off : Nat) (s : State) : (hostRead off s).epoch = s.epoch := rfl

@[simp] theorem hostRead_draws (off : Nat) (s : State) : (hostRead off s).draws = s.draws := rfl

/-! ### assertReset -/

@[simp] theorem assertReset_cmd (s : State) : (assertReset s).cmd = 0#32 := rfl

@[simp] theorem assertReset_err (s : State) : (assertReset s).err = .ok := rfl

@[simp] theorem assertReset_keyValid (s : State) : (assertReset s).keyValid = false := rfl

@[simp] theorem assertReset_variant (s : State) : (assertReset s).variant = 0#3 := rfl

@[simp] theorem assertReset_ilen (s : State) : (assertReset s).ilen = 0#32 := rfl

@[simp] theorem assertReset_olen (s : State) : (assertReset s).olen = 0#32 := rfl

@[simp] theorem assertReset_bufcap (s : State) : (assertReset s).bufcap = s.bufcap := rfl

@[simp] theorem assertReset_mem (s : State) : (assertReset s).mem = [] := rfl

@[simp] theorem assertReset_uop (s : State) : (assertReset s).uop = none := rfl

@[simp] theorem assertReset_ports (s : State) : (assertReset s).ports = Ports.idle := rfl

@[simp] theorem assertReset_host (s : State) : (assertReset s).host = s.host := rfl

@[simp] theorem assertReset_hostReads (s : State) : (assertReset s).hostReads = s.hostReads := rfl

@[simp] theorem assertReset_errLog (s : State) : (assertReset s).errLog = s.errLog := rfl

@[simp] theorem assertReset_epoch (s : State) : (assertReset s).epoch = s.epoch + 1 := rfl

@[simp] theorem assertReset_draws (s : State) : (assertReset s).draws = s.draws + 1 := rfl

@[simp] theorem assertReset_work (s : State) : (assertReset s).work = Work.free s.draws := rfl

end Sys2Proof.Machine
end

