-- ==== Sys2Proof/Laws/Memory.lean ====
section
/-!
SUPPORT. The memory operations: a read after a write, every other address is left alone, and the canonical form
is kept by every operation.
-/

namespace Sys2Proof.Machine

/-- The addresses a memory lists. -/
def Memory.addrs (m : Memory) : List Nat := m.map Prod.fst

theorem Memory.lookup_write_same (m : Memory) (a : Nat) (v : Byte) :
    Memory.lookup (Memory.write m a v) a = some v := by
  induction m with
  | nil => simp [Memory.write, Memory.lookup]
  | cons c rest ih =>
    simp only [Memory.write]
    split
    · simp [Memory.lookup]
    · split
      · simp [Memory.lookup]
      · next h => simp [Memory.lookup, h, ih]

theorem Memory.lookup_write_other (m : Memory) (a b : Nat) (v : Byte) (hne : b ≠ a) :
    Memory.lookup (Memory.write m a v) b = Memory.lookup m b := by
  induction m with
  | nil => simp [Memory.write, Memory.lookup, hne]
  | cons c rest ih =>
    simp only [Memory.write]
    split
    · simp [Memory.lookup, hne]
    · split
      · next h => subst h; simp [Memory.lookup, hne]
      · simp [Memory.lookup, ih]

/-- A run of bytes: inside it the byte written, outside it what was there. -/
theorem Memory.lookup_writeBytes (vs : List Byte) (m : Memory) (a b : Nat) :
    Memory.lookup (Memory.writeBytes m a vs) b =
      if a ≤ b ∧ b < a + vs.length then vs[b - a]? else Memory.lookup m b := by
  induction vs generalizing m a with
  | nil => simp [Memory.writeBytes]
  | cons v rest ih =>
    rw [Memory.writeBytes, ih]
    by_cases hb : b = a
    · subst hb
      simp [Memory.lookup_write_same]
    · rw [Memory.lookup_write_other _ _ _ _ hb]
      by_cases hin : a + 1 ≤ b ∧ b < a + 1 + rest.length
      · have h2 : a ≤ b ∧ b < a + (v :: rest).length := by
          simp only [List.length_cons]; omega
        have h3 : b - a = (b - (a + 1)) + 1 := by omega
        rw [if_pos hin, if_pos h2, h3, List.getElem?_cons_succ]
      · have h2 : ¬(a ≤ b ∧ b < a + (v :: rest).length) := by
          simp only [List.length_cons]; omega
        rw [if_neg hin, if_neg h2]

/-- A write lists its address and the addresses listed before. -/
theorem Memory.mem_addrs_write (m : Memory) (a b : Nat) (v : Byte) :
    b ∈ (Memory.write m a v).map Prod.fst ↔ b = a ∨ b ∈ m.map Prod.fst := by
  induction m with
  | nil => simp [Memory.write]
  | cons c rest ih =>
    simp only [Memory.write]
    split
    · simp
    · split
      · next h => subst h; simp
      · simp only [List.map_cons, List.mem_cons, ih]; tauto

theorem Memory.wf_write {m : Memory} (h : Memory.Wf m) (a : Nat) (v : Byte) :
    Memory.Wf (Memory.write m a v) := by
  induction m with
  | nil => simp [Memory.Wf, Memory.write]
  | cons c rest ih =>
    have hc : ∀ b ∈ rest.map Prod.fst, c.1 < b := (List.pairwise_cons.mp h).1
    have hr : Memory.Wf rest := (List.pairwise_cons.mp h).2
    simp only [Memory.write]
    split
    · next hlt =>
      refine List.pairwise_cons.mpr ⟨fun b hb => ?_, h⟩
      rcases List.mem_cons.mp hb with rfl | hb
      · exact hlt
      · exact Nat.lt_trans hlt (hc b hb)
    · split
      · next heq => subst heq; exact List.pairwise_cons.mpr ⟨hc, hr⟩
      · refine List.pairwise_cons.mpr ⟨fun b hb => ?_, ih hr⟩
        rcases (Memory.mem_addrs_write _ _ _ _).mp hb with rfl | hb
        · show c.1 < b; omega
        · exact hc b hb

theorem Memory.wf_writeBytes (vs : List Byte) {m : Memory} (h : Memory.Wf m) (a : Nat) :
    Memory.Wf (Memory.writeBytes m a vs) := by
  induction vs generalizing m a with
  | nil => exact h
  | cons v rest ih => exact ih (Memory.wf_write h a v) (a + 1)

theorem Memory.mem_addrs_writeBytes (vs : List Byte) (m : Memory) (a b : Nat) :
    b ∈ (Memory.writeBytes m a vs).map Prod.fst ↔
      (a ≤ b ∧ b < a + vs.length) ∨ b ∈ m.map Prod.fst := by
  induction vs generalizing m a with
  | nil => simp [Memory.writeBytes]
  | cons v rest ih =>
    rw [Memory.writeBytes, ih, Memory.mem_addrs_write, List.length_cons]
    constructor
    · rintro (h | rfl | h)
      · left; omega
      · left; omega
      · right; exact h
    · rintro (h | h)
      · by_cases hb : b = a
        · right; left; exact hb
        · left; omega
      · right; right; exact h

/-- The memory right after reset is in the canonical form. -/
theorem Memory.wf_reset : Memory.Wf State.reset.mem := List.Pairwise.nil

theorem State.byteAt_memWrite (s : State) (addr off : Nat) (v : List Byte) :
    (s.memWrite addr v).byteAt off =
      if obufBase + addr ≤ off ∧ off < obufBase + addr + v.length then (v[off - (obufBase + addr)]?).getD 0#8
      else s.byteAt off := by
  simp only [State.byteAt, memWrite_mem, memWrite_epoch, Memory.lookup_writeBytes]
  split
  · next h =>
    have : off - (obufBase + addr) < v.length := by omega
    simp [List.getElem?_eq_getElem this]
  · rfl

@[simp] theorem State.bytesAt_length (s : State) (off n : Nat) : (s.bytesAt off n).length = n := by
  simp [State.bytesAt]

@[simp] theorem State.memRead_length (s : State) (addr n : Nat) : (s.memRead addr n).length = n := by
  simp [State.memRead]

@[simp] theorem State.operand_length (s : State) : s.operand.length = s.ilen.toNat := by
  simp [State.operand]

end Sys2Proof.Machine
end

