-- ==== Sys2Proof/Laws/Exec.lean ====
section
/-!
SUPPORT. What each shared operation and the step can do, said once: later proofs cite these lemmas and do not unfold
the operations.
-/

namespace Sys2Proof.Machine

/-! ### Sub-blocks -/

theorem engineUop_of_row {pass : Width → List Word → Block → Block} {s : State} {row : VariantRow}
    (h : s.variantRow = some row) :
    engineUop pass s =
      (let b := pass row.width (s.roundKeys row.rounds) s.blockIn
       (({ s with work := { s.work with x := b.x, y := b.y } }).driveBlock b).releaseCounters) := by
  simp [engineUop, h]

theorem engineUop_of_none {pass : Width → List Word → Block → Block} {s : State} (h : s.variantRow = none) :
    engineUop pass s = fail .unimplementedVariant s := by
  simp [engineUop, h]

theorem driverUop_of_aligned {out : VariantRow → List Word → List Byte → List Byte}
    {work : VariantRow → List Word → List Byte → Work → Work} {s : State} {row : VariantRow}
    (h : s.variantRow = some row) (ha : s.ports.bytesIn.length % row.blockBytes = 0) :
    driverUop out work s =
      ({ s with
        work := work row (s.roundKeys row.rounds) s.ports.bytesIn s.work
        ports := { s.ports with
          bytesOut := out row (s.roundKeys row.rounds) s.ports.bytesIn } }).releaseCounters := by
  simp [driverUop, h, ha]

theorem driverUop_of_unaligned {out : VariantRow → List Word → List Byte → List Byte}
    {work : VariantRow → List Word → List Byte → Work → Work} {s : State} {row : VariantRow}
    (h : s.variantRow = some row) (ha : ¬ s.ports.bytesIn.length % row.blockBytes = 0) :
    driverUop out work s =
      ({ s with
        ports := { s.ports with bytesOut := freeBytes s.draws s.ports.bytesIn.length }
        draws := s.draws + 1 }).releaseWork := by
  simp [driverUop, h, ha]

theorem driverUop_of_none {out : VariantRow → List Word → List Byte → List Byte}
    {work : VariantRow → List Word → List Byte → Work → Work} {s : State} (h : s.variantRow = none) :
    driverUop out work s = fail .unimplementedVariant s := by
  simp [driverUop, h]

theorem execKsExpand_of_row {s : State} {row : VariantRow} (h : vtLookup s.ports.tag.toNat = some row) :
    execKsExpand s =
      (let r := expandKey row (driven s.draws (keyLength row) s.ports.bytesIn)
       .next ({ s with
         rk := rkFileOf r.1 s.draws
         work := { s.work with a := r.2.a, tap := tapsHolding r.2.taps s.work.tap } }).releaseCounters) := by
  simp [execKsExpand, h]

theorem execKsExpand_of_none {s : State} (h : vtLookup s.ports.tag.toNat = none) :
    execKsExpand s = .next (fail .unimplementedVariant s) := by
  simp [execKsExpand, h]

/-! ### The variant table -/

/-- A tag has a row exactly when it is at most 4. -/
theorem vtLookup_eq_none_iff (tag : Nat) : vtLookup tag = none ↔ 4 < tag := by
  match tag with
  | 0 | 1 | 2 | 3 | 4 => simp [vtLookup]
  | n + 5 => simp [vtLookup]

/-- What a row of the table can be. -/
theorem vtLookup_cases {tag : Nat} {row : VariantRow} (h : vtLookup tag = some row) :
    (tag = 0 ∧ row = ⟨.w32, 3, 26, 8⟩) ∨ (tag = 1 ∧ row = ⟨.w32, 4, 27, 8⟩) ∨ (tag = 2 ∧ row = ⟨.w64, 2, 32, 16⟩) ∨
      (tag = 3 ∧ row = ⟨.w64, 3, 33, 16⟩) ∨ (tag = 4 ∧ row = ⟨.w64, 4, 34, 16⟩) := by
  match tag, h with
  | 0, h | 1, h | 2, h | 3, h | 4, h => simp_all [vtLookup]

/-- B = 2n, and n is 4 or 8 (40_variant_table.md R112). -/
theorem blockBytes_of_row {tag : Nat} {row : VariantRow} (h : vtLookup tag = some row) :
    row.blockBytes = 2 * row.width.bytes ∧ (row.blockBytes = 8 ∨ row.blockBytes = 16) := by
  rcases vtLookup_cases h with ⟨-, rfl⟩ | ⟨-, rfl⟩ | ⟨-, rfl⟩ | ⟨-, rfl⟩ | ⟨-, rfl⟩ <;> decide

/-! ### Commands -/

theorem constructChecks_cases (var : Nat) (s : State) :
    (vtLookup var = none ∧ constructChecks var s = .error .unimplementedVariant) ∨
    (∃ row, vtLookup var = some row ∧ s.ilen.toNat ≠ keyLength row ∧
      constructChecks var s = .error .invalidKeyLength) ∨
    (∃ row, vtLookup var = some row ∧ s.ilen.toNat = keyLength row ∧ constructChecks var s = .ok row) := by
  unfold constructChecks
  split
  · next h => exact .inl ⟨h, rfl⟩
  · next row h =>
    by_cases hl : s.ilen.toNat = keyLength row
    · exact .inr (.inr ⟨row, h, hl, if_pos hl⟩)
    · exact .inr (.inl ⟨row, h, hl, if_neg hl⟩)

/-- CONSTRUCT either fails or installs a key schedule. -/
theorem execConstruct_cases (var : Nat) (s : State) :
    (∃ code, code ≠ .ok ∧ execConstruct var s = .next (fail code s)) ∨
    (∃ row, vtLookup var = some row ∧ s.ilen.toNat = keyLength row ∧ execConstruct var s =
      .next (succeed 0 ((s.installKey var (expandKey row s.operand).1).releaseWork))) := by
  rcases constructChecks_cases var s with ⟨-, h⟩ | ⟨row, -, -, h⟩ | ⟨row, hr, hl, h⟩
  · exact .inl ⟨.unimplementedVariant, by decide, by simp [execConstruct, h]⟩
  · exact .inl ⟨.invalidKeyLength, by decide, by simp [execConstruct, h]⟩
  · exact .inr ⟨row, hr, hl, by simp [execConstruct, h]⟩

theorem dataChecks_cases (s : State) :
    (s.keyValid = false ∧ dataChecks s = .error .noKey) ∨
    (s.keyValid = true ∧ s.ibufBytes < s.ilen.toNat ∧ dataChecks s = .error .lengthOverflow) ∨
    (s.keyValid = true ∧ s.ilen.toNat ≤ s.ibufBytes ∧ s.variantRow = none ∧
      dataChecks s = .error .unimplementedVariant) ∨
    (∃ row, s.keyValid = true ∧ s.ilen.toNat ≤ s.ibufBytes ∧ s.variantRow = some row ∧ dataChecks s = .ok row) := by
  unfold dataChecks
  cases hk : s.keyValid
  · exact .inl ⟨rfl, by simp⟩
  · by_cases hl : s.ibufBytes < s.ilen.toNat
    · exact .inr (.inl ⟨rfl, hl, by simp [hl]⟩)
    · have hle := Nat.le_of_not_lt hl
      cases hr : s.variantRow with
      | none => exact .inr (.inr (.inl ⟨rfl, hle, rfl, by simp [hl]⟩))
      | some row => exact .inr (.inr (.inr ⟨row, rfl, hle, rfl, by simp [hl]⟩))

theorem finishData_error (code : ErrCode) (s : State) : finishData (.error code) s = fail code s := rfl

theorem finishData_ok (out : List Byte) (s : State) :
    finishData (.ok out) s = succeed out.length ((s.memWrite 0 out).releaseWork) := rfl

/-! ### The step -/

/-- Every instruction completes: no meaning ends in a fault or a refusal. -/
theorem exec_answers_next (i : Instr) (s : State) : ∃ t, exec i s = .next t := by
  cases i with
  | construct var =>
    rcases execConstruct_cases var s with ⟨c, -, h⟩ | ⟨_, -, -, h⟩ <;> exact ⟨_, h⟩
  | vtLookup => simp only [exec, execVtLookup]; split <;> exact ⟨_, rfl⟩
  | ksExpand => simp only [exec, execKsExpand]; split <;> exact ⟨_, rfl⟩
  | pad => simp only [exec, execPad]; split <;> exact ⟨_, rfl⟩
  | unpad =>
    simp only [exec, execUnpad]
    split
    · split <;> exact ⟨_, rfl⟩
    · exact ⟨_, rfl⟩
  | encrypt _ _ | decrypt _ _ | rfEnc _ | rfDec _ | beEnc | beDec | ecbEnc | ecbDec | cbcEnc | cbcDec | blkDecode
  | blkEncode => exact ⟨_, rfl⟩

/-- What a step that answers a next state did, with the select lines idle. -/
theorem step_cases {s t : State} (hu : s.uop = none) (h : step s = .next t) :
    (s.host = [] ∧ t = s) ∨
    (∃ rest, s.host = .rst :: rest ∧ t = assertReset { s with host := rest }) ∨
    (∃ off rest, s.host = .read 32 off :: rest ∧ off % 4 = 0 ∧ t = hostRead off { s with host := rest }) ∨
    (∃ off v rest, s.host = .write 32 off v :: rest ∧ off % 4 = 0 ∧ off ≠ 0 ∧
      t = hostWrite off v { s with host := rest }) ∨
    (∃ v rest e, s.host = .write 32 0 v :: rest ∧ decode (.cmd32 v) = .error e ∧
      t = fail .illegalCommand { s with host := rest, cmd := v }) ∨
    (∃ v rest i, s.host = .write 32 0 v :: rest ∧ decode (.cmd32 v) = .ok i ∧
      exec i { s with host := rest, cmd := v } = .next t) := by
  simp only [step, nextIssue, hu] at h
  match hh : s.host with
  | [] =>
    simp only [hh, Host.Outcome.next.injEq] at h
    exact .inl ⟨rfl, h.symm⟩
  | .rst :: rest =>
    simp only [hh, issueInput, Host.Outcome.next.injEq] at h
    exact .inr (.inl ⟨rest, rfl, h.symm⟩)
  | .read width off :: rest =>
    by_cases hc : inContract width off
    · obtain ⟨rfl, ho⟩ : width = 32 ∧ off % 4 = 0 := by simpa [inContract] using hc
      simp only [hh, issueInput, hc, if_true, Host.Outcome.next.injEq] at h
      exact .inr (.inr (.inl ⟨off, rest, rfl, ho, by rw [hu]; exact h.symm⟩))
    · simp [hh, issueInput, hc] at h
  | .write width off v :: rest =>
    by_cases hc : inContract width off
    · obtain ⟨rfl, ho⟩ : width = 32 ∧ off % 4 = 0 := by simpa [inContract] using hc
      simp only [hh, issueInput, hc, if_true, issueWrite] at h
      by_cases h0 : off = 0
      · subst h0
        simp only [if_true, issueCode] at h
        cases hd : decode (.cmd32 v) with
        | ok i =>
          simp only [hd] at h
          exact .inr (.inr (.inr (.inr (.inr ⟨v, rest, i, rfl, hd, by rw [hu]; exact h⟩))))
        | error e =>
          simp only [hd, Host.Outcome.next.injEq] at h
          exact .inr (.inr (.inr (.inr (.inl ⟨v, rest, e, rfl, hd, by rw [hu]; exact h.symm⟩))))
      · simp only [if_neg h0, Host.Outcome.next.injEq] at h
        exact .inr (.inr (.inr (.inl ⟨off, v, rest, rfl, ho, h0, by rw [hu]; exact h.symm⟩)))
    · simp [hh, issueInput, hc] at h

/-- A command word decodes to a command, never to an internal operation. -/
theorem decodeCmd_is_command {c : BitVec 32} {i : Instr} (h : decode (.cmd32 c) = .ok i) :
    (∃ var, i = .construct var) ∨ (∃ mode pad, i = .encrypt mode pad) ∨ (∃ mode pad, i = .decrypt mode pad) := by
  simp only [decode, decodeCmd] at h
  split at h
  · cases h
  · split at h
    · split at h
      · cases h; exact .inl ⟨_, rfl⟩
      · cases h
    · split at h
      · split at h
        · cases h; exact .inr (.inl ⟨_, _, rfl⟩)
        · cases h
      · split at h
        · split at h
          · cases h; exact .inr (.inr ⟨_, _, rfl⟩)
          · cases h
        · cases h

end Sys2Proof.Machine
end

