-- ==== Sys2Proof/Laws/Frames.lean ====
section
/-!
SUPPORT. Frames of the shared operations: what a change of the inner registers, a failed command and a data
command's writes leave unchanged.
-/

namespace Sys2Proof.Machine

theorem bytesKept_of_mem {s t : State} (hm : t.mem = s.mem) (he : t.epoch = s.epoch) : BytesKept s t := by
  intro a
  simp [State.byteAt, hm, he]

/-- A change of the working registers, the ports and the draw counter is within the frame of an internal operation. -/
theorem uopFrame_of_inner (s : State) (wk : Work) (po : Ports) (d : Nat) :
    UopFrame s { s with work := wk, ports := po, draws := d } :=
  ⟨⟨rfl, rfl, rfl⟩, bytesKept_of_mem rfl rfl, ⟨rfl, rfl, rfl, rfl, rfl, rfl, rfl⟩, ⟨rfl, rfl, rfl⟩⟩

theorem failedWith_fail (code : ErrCode) (s : State) : FailedWith code s (fail code s) := rfl

theorem keyKept_fail (code : ErrCode) (s : State) : KeyKept s (fail code s) := ⟨rfl, rfl, rfl⟩

theorem bytesKept_fail (code : ErrCode) (s : State) : BytesKept s (fail code s) := bytesKept_of_mem rfl rfl

theorem hostSideKept_fail (code : ErrCode) (s : State) : HostSideKept s (fail code s) :=
  ⟨rfl, rfl, rfl, rfl, rfl, rfl, rfl⟩

/-- The state of a data command that succeeded with the result `out`. -/
theorem dataCommandFrame_of_ok (out : List Byte) (s : State) :
    DataCommandFrame out.length s (succeed out.length ((s.memWrite 0 out).releaseWork)) := by
  refine ⟨⟨rfl, rfl, rfl⟩, ⟨rfl, rfl, rfl, rfl, rfl, rfl, rfl⟩, rfl, fun a ha => ?_⟩
  have h : (succeed out.length ((s.memWrite 0 out).releaseWork)).byteAt a = (s.memWrite 0 out).byteAt a := by
    simp [State.byteAt]
  rw [h, State.byteAt_memWrite, if_neg (by omega)]

/-- OBUF after a data command that succeeded. -/
theorem resultBytes_of_ok (out : List Byte) (s : State) (i : Nat) (h : i < out.length) :
    (succeed out.length ((s.memWrite 0 out).releaseWork)).byteAt (obufBase + i) = out[i] := by
  have e : (succeed out.length ((s.memWrite 0 out).releaseWork)).byteAt (obufBase + i)
      = (s.memWrite 0 out).byteAt (obufBase + i) := by
    simp [State.byteAt]
  rw [e, State.byteAt_memWrite, if_pos (by omega)]
  simp [h]

end Sys2Proof.Machine
end

