-- ==== Sys2Proof/Laws/PerInstr.lean ====
section
/-!
SUPPORT. The family `TableRow`: the word the encoder writes for an instruction lies in that instruction's row of the
opcode table (30_encoding.md R93), one lemma per constructor.
-/

namespace Sys2Proof.Laws.TableRow

/-- A well-formed instruction's code has the row's format, and its masked bits are the row's match. -/
def Statement (i : Instr) : Prop := i.WellFormed = true → (tableRow i).Holds (encode i) = true

theorem construct (var : Nat) : Statement (.construct var) := by
  intro h
  have h8 : var < 8 := by simpa [Instr.WellFormed] using h
  clear h
  revert var
  decide

theorem encrypt (mode : Nat) (pad : Padding) : Statement (.encrypt mode pad) := by
  intro h
  have h4 : mode < 4 := by simpa [Instr.WellFormed] using h
  clear h
  cases pad <;> revert mode <;> decide

theorem decrypt (mode : Nat) (pad : Padding) : Statement (.decrypt mode pad) := by
  intro h
  have h4 : mode < 4 := by simpa [Instr.WellFormed] using h
  clear h
  cases pad <;> revert mode <;> decide

theorem vtLookup : Statement .vtLookup := by intro _; decide

theorem rfEnc (wsel : Width) : Statement (.rfEnc wsel) := by intro _; cases wsel <;> decide

theorem rfDec (wsel : Width) : Statement (.rfDec wsel) := by intro _; cases wsel <;> decide

theorem ksExpand : Statement .ksExpand := by intro _; decide

theorem beEnc : Statement .beEnc := by intro _; decide

theorem beDec : Statement .beDec := by intro _; decide

theorem ecbEnc : Statement .ecbEnc := by intro _; decide

theorem ecbDec : Statement .ecbDec := by intro _; decide

theorem cbcEnc : Statement .cbcEnc := by intro _; decide

theorem cbcDec : Statement .cbcDec := by intro _; decide

theorem pad : Statement .pad := by intro _; decide

theorem unpad : Statement .unpad := by intro _; decide

theorem blkDecode : Statement .blkDecode := by intro _; decide

theorem blkEncode : Statement .blkEncode := by intro _; decide

end Sys2Proof.Laws.TableRow
end

