-- ==== Sys2Proof/Tests/Slice0.lean ====
section
/-!
SUPPORT. Tests: expected values are those of spec/ (the words of 30_encoding.md R89 and R90, the vectors of
95_test_vectors.md and the worked examples of the rules), and one witness per hypothesis of each obligation.
-/

namespace Sys2Proof.Tests

open Sys2Proof Sys2Proof.Machine

set_option Elab.async false

/-! ### Small states -/

/-- The state after a step that answered one. -/
def after (o : Host.Outcome State Fault Refusal) (f : State → α) : Option α :=
  match o with
  | .next s => some (f s)
  | .fault _ => none
  | .refused _ => none

/-- Bytes in IBUF from byte 0, and ILEN. -/
def load (bytes : List Byte) (ilen : Nat) (s : State) : State :=
  { s with mem := Memory.writeBytes s.mem ibufBase bytes, ilen := BitVec.ofNat 32 ilen }

/-- A core with a cipher object. -/
def keyed (tag : BitVec 3) (kb : List Byte) : State :=
  match vtLookup tag.toNat with
  | some row => { State.reset with keyValid := true, variant := tag, rk := rkFileOf (expandKey row kb).1 0 }
  | none => State.reset

/-- Blocks, key and tag on the ports. -/
def onPorts (x y k : Word) (s : State) : State := { s with ports := { s.ports with xIn := x, yIn := y, kIn := k } }

/-- A byte sequence on the operand line. -/
def onLine (bytes : List Byte) (s : State) : State := { s with ports := { s.ports with bytesIn := bytes } }

/-- The host's next input. -/
def given (input : HostInput) (s : State) : State := { s with host := [input] }

/-- `CMD.PAD` = 1, as while `ENCRYPT ECB, PKCS7` runs. -/
def padded (s : State) : State := { s with cmd := 0x00001002#32 }

/-- OBUF[0 .. n). -/
def obuf (n : Nat) (s : State) : List Byte := s.bytesAt obufBase n

/-- The first bytes 00 01 02 … -/
def counting (n : Nat) : List Byte := (List.range n).map (BitVec.ofNat 8)

/-- K64_96 of 95_test_vectors.md. -/
def k64_96 : List Byte := [0x00, 0x01, 0x02, 0x03, 0x08, 0x09, 0x0a, 0x0b, 0x10, 0x11, 0x12, 0x13]

/-- A Speck64_96 core under K64_96. -/
def core64 : State := keyed 0#3 k64_96

/-- A Speck128_128 core under K128_128 = 00 01 … 0f. -/
def core128 : State := keyed 2#3 (counting 16)

/-- The plaintext of the Speck64_96 vector, 95_test_vectors.md section 1.1. -/
def p64 : List Byte := [0x65, 0x61, 0x6e, 0x73, 0x20, 0x46, 0x61, 0x74]

/-- Its ciphertext. -/
def c64 : List Byte := [0x6c, 0x94, 0x75, 0x41, 0xec, 0x52, 0x79, 0x9f]

/-- The plaintext of the Speck128_128 vector. -/
def p128 : List Byte :=
  [0x20, 0x6d, 0x61, 0x64, 0x65, 0x20, 0x69, 0x74, 0x20, 0x65, 0x71, 0x75, 0x69, 0x76, 0x61, 0x6c]

/-- Its ciphertext. -/
def c128 : List Byte :=
  [0x18, 0x0d, 0x57, 0x5c, 0xdf, 0xfe, 0x60, 0x78, 0x65, 0x32, 0x78, 0x79, 0x51, 0x98, 0x5d, 0xa6]

/-- The three blocks of 95_test_vectors.md section 5.1. -/
def p64x3 : List Byte := p64 ++ p64 ++ counting 8

/-- Their ECB ciphertext. -/
def ecb64x3 : List Byte := c64 ++ c64 ++ [0xbd, 0xb9, 0xb0, 0x40, 0x62, 0xba, 0xad, 0x5a]

/-- Their CBC ciphertext. -/
def cbc64x3 : List Byte :=
  c64 ++ [0x6b, 0x88, 0x0f, 0xf9, 0x26, 0xef, 0xe3, 0x3c, 0xf1, 0x78, 0x9a, 0x09, 0x43, 0x05, 0x70, 0x1b]

/-! ### Well-formedness: what it refuses -/

theorem test_wf_construct_var_8 : (Instr.construct 8).WellFormed = false := by decide
theorem test_wf_encrypt_mode_4 : (Instr.encrypt 4 .none).WellFormed = false := by decide
theorem test_wf_decrypt_mode_4 : (Instr.decrypt 4 .pkcs7).WellFormed = false := by decide

/-! ### Decoding: the words of R90, the codes of R89, bit by bit -/

theorem test_decode_construct : decode (.cmd32 0b0000_0000_0000_0000_0000_0000_0100_0001#32) = .ok (.construct 4) := by
  decide
theorem test_decode_encrypt : decode (.cmd32 0b0000_0000_0000_0000_0001_0001_0000_0010#32) = .ok (.encrypt 1 .pkcs7) := by
  decide
theorem test_decode_decrypt : decode (.cmd32 0b0000_0000_0000_0000_0001_0000_0000_0011#32) = .ok (.decrypt 0 .pkcs7) := by
  decide
theorem test_decode_vtLookup : decode (.uop8 0b0001_0000#8) = .ok .vtLookup := by decide
theorem test_decode_rfEnc : decode (.uop8 0b0010_0010#8) = .ok (.rfEnc .w64) := by decide
theorem test_decode_rfDec : decode (.uop8 0b0010_0001#8) = .ok (.rfDec .w32) := by decide
theorem test_decode_ksExpand : decode (.uop8 0b0011_0000#8) = .ok .ksExpand := by decide
theorem test_decode_beEnc : decode (.uop8 0b0100_0000#8) = .ok .beEnc := by decide
theorem test_decode_beDec : decode (.uop8 0b0100_0001#8) = .ok .beDec := by decide
theorem test_decode_ecbEnc : decode (.uop8 0b0101_0000#8) = .ok .ecbEnc := by decide
theorem test_decode_ecbDec : decode (.uop8 0b0101_0001#8) = .ok .ecbDec := by decide
theorem test_decode_cbcEnc : decode (.uop8 0b0101_0010#8) = .ok .cbcEnc := by decide
theorem test_decode_cbcDec : decode (.uop8 0b0101_0011#8) = .ok .cbcDec := by decide
theorem test_decode_pad : decode (.uop8 0b0110_0000#8) = .ok .pad := by decide
theorem test_decode_unpad : decode (.uop8 0b0110_0001#8) = .ok .unpad := by decide
theorem test_decode_blkDecode : decode (.uop8 0b0111_0000#8) = .ok .blkDecode := by decide
theorem test_decode_blkEncode : decode (.uop8 0b0111_0001#8) = .ok .blkEncode := by decide
theorem test_decode_unused_uop : decode (.uop8 0x24#8) = .error .unusedUop := by decide
/-- 95_test_vectors.md section 7.1: the illegal words of the table. -/
theorem test_decode_illegal : [0x0#32, 0x4, 0xF, 0x81, 0x121, 0x1021, 0x2021, 0x421, 0x12, 0x802].all
    (fun c => match decode (.cmd32 c) with | .ok _ => false | .error _ => true) = true := by decide

/-! ### Commands -/

/-- R222's example: STATUS = 0x00002100; section 3.1: RK[31]. -/
theorem test_construct : after (exec (.construct 2) (load (counting 16) 16 State.reset))
    (fun t => (t.statusWord, t.rk[31], t.olen)) = some (0x00002100#32, 0x2199c870db8ec93f#64, 0#32) := by decide +kernel
/-- Section 7.1: ILEN = 15 is INVALID_KEY_LENGTH. -/
theorem test_construct_key_length : after (exec (.construct 2) (load (counting 16) 15 State.reset)) State.statusWord
    = some 0x00000001#32 := by decide +kernel
/-- R223's example. -/
theorem test_encrypt : after (exec (.encrypt 0 .none) (load p128 16 core128))
    (fun t => (t.statusWord, t.olen, obuf 16 t)) = some (0x00002100#32, 16#32, c128) := by decide +kernel
/-- R253's example: MODE 2 with ILEN = 7 is UNALIGNED_INPUT. -/
theorem test_encrypt_alignment_first : after (exec (.encrypt 2 .none) (load (counting 8) 7 core64)) State.statusWord
    = some 0x00000102#32 := by decide +kernel
/-- R224's example. -/
theorem test_decrypt : after (exec (.decrypt 0 .none) (load c64 8 core64))
    (fun t => (t.statusWord, t.olen, obuf 8 t)) = some (0x00000100#32, 8#32, p64) := by decide +kernel
/-- R253's example: 0x00001203 with ILEN = 0 is UNIMPLEMENTED_MODE, not EMPTY_UNPAD. -/
theorem test_decrypt_mode_before_unpad : after (exec (.decrypt 2 .pkcs7) (load [] 0 core64)) State.statusWord
    = some 0x00000103#32 := by decide +kernel
/-- R225's example: 0x00000121 is ILLEGAL_COMMAND, and CMD holds the word. -/
theorem test_illegal_command : after (step (given (.write 32 0 0x00000121#32) core64)) (fun t => (t.statusWord, t.cmd))
    = some (0x00000106#32, 0x00000121#32) := by decide +kernel

/-! ### Internal operations -/

/-- R111's example. -/
theorem test_vtLookup : after (exec .vtLookup { State.reset with ports := { Ports.idle with tag := 2#3 } })
    (fun t => t.ports.row) = some (some ⟨.w64, 2, 32, 16⟩) := by decide
/-- R111's example: tag 5. -/
theorem test_vtLookup_unknown : after (exec .vtLookup { State.reset with ports := { Ports.idle with tag := 5#3 } })
    (fun t => (t.err, t.ports.row)) = some (.unimplementedVariant, none) := by decide
/-- Section 2.1, row 6. -/
theorem test_rfEnc_w32 : after (exec (.rfEnc .w32) (onPorts 0x12345678 0x9abcdef0 0x0f0f0f0f State.reset))
    (fun t => (t.ports.xOut, t.ports.yOut)) = some (0x1dc01c49#64, 0xc826ebcd#64) := by decide
/-- Section 2.2, row 6. -/
theorem test_rfEnc_w64 :
    after (exec (.rfEnc .w64) (onPorts 0x0123456789abcdef 0xfedcba9876543210 0x0f0f0f0f0f0f0f0f State.reset))
    (fun t => (t.ports.xOut, t.ports.yOut)) = some (0xe2d2d2d2d2d2d2d2#64, 0x1437061160734255#64) := by decide
/-- R122's corner case: the subtraction borrows. -/
theorem test_rfDec_w32 : after (exec (.rfDec .w32) (onPorts 0xffffffff 0x1 0xffffffff State.reset))
    (fun t => (t.ports.xOut, t.ports.yOut)) = some (0x120#64, 0xdfffffff#64) := by decide
/-- Section 2.2, row 6. -/
theorem test_rfDec_w64 :
    after (exec (.rfDec .w64) (onPorts 0x0123456789abcdef 0xfedcba9876543210 0x0f0f0f0f0f0f0f0f State.reset))
    (fun t => (t.ports.xOut, t.ports.yOut)) = some (0x2c4a6886a4c2e10e#64, 0xffffffffffffffff#64) := by decide
/-- Section 3.1: RK[1] and RK[31] of K128_128. -/
theorem test_ksExpand_long : after (exec .ksExpand
      { State.reset with ports := { Ports.idle with tag := 2#3, bytesIn := counting 16 } })
    (fun t => (t.rk[1], t.rk[31])) = some (0x37253b31171d0309#64, 0x2199c870db8ec93f#64) := by decide +kernel
/-- Section 3.3: the all-zero Speck64_96 key. -/
theorem test_ksExpand_short : after (exec .ksExpand
      { State.reset with ports := { Ports.idle with tag := 0#3, bytesIn := List.replicate 12 0#8 } })
    (fun t => (t.rk[2], t.rk[3], t.rk[25])) = some (0x1#64, 0xb#64, 0x2900a984#64) := by decide +kernel
/-- R160's example. -/
theorem test_beEnc : after (exec .beEnc (onPorts 0x6c61766975716520 0x7469206564616d20 0 core128))
    (fun t => (t.ports.xOut, t.ports.yOut)) = some (0xa65d985179783265#64, 0x7860fedf5c570d18#64) := by decide +kernel
/-- R161's example. -/
theorem test_beDec : after (exec .beDec (onPorts 0x9f7952ec 0x4175946c 0 core64))
    (fun t => (t.ports.xOut, t.work.y)) = some (0x74614620#64, 0x736e6165#64) := by decide +kernel
/-- Section 5.1. -/
theorem test_ecbEnc : after (exec .ecbEnc (onLine p64x3 core64)) (fun t => t.ports.bytesOut) = some ecb64x3 := by
  decide +kernel
/-- Section 5.1. -/
theorem test_ecbDec : after (exec .ecbDec (onLine ecb64x3 core64)) (fun t => t.ports.bytesOut) = some p64x3 := by
  decide +kernel
/-- Section 5.1. -/
theorem test_cbcEnc : after (exec .cbcEnc (onLine p64x3 core64)) (fun t => t.ports.bytesOut) = some cbc64x3 := by
  decide +kernel
/-- Section 5.1. -/
theorem test_cbcDec : after (exec .cbcDec (onLine cbc64x3 core64)) (fun t => t.ports.bytesOut) = some p64x3 := by
  decide +kernel
/-- R200's example. -/
theorem test_pad : after (exec .pad (padded (onLine [0x61, 0x62, 0x63, 0x64, 0x65, 0x66, 0x67] core64)))
    (fun t => t.ports.bytesOut) = some [0x61, 0x62, 0x63, 0x64, 0x65, 0x66, 0x67, 0x01] := by decide +kernel
/-- R200's corner case: an aligned sequence grows by a whole block. -/
theorem test_pad_empty : after (exec .pad (padded (onLine [] core64))) (fun t => t.ports.bytesOut)
    = some [0x08, 0x08, 0x08, 0x08, 0x08, 0x08, 0x08, 0x08] := by decide +kernel
/-- R201's first example. -/
theorem test_unpad : after (exec .unpad (padded (onLine [0x01, 0x02, 0x03, 0x04, 0x05, 0x06, 0x02, 0x02] core64)))
    (fun t => t.ports.bytesOut) = some [0x01, 0x02, 0x03, 0x04, 0x05, 0x06] := by decide +kernel
/-- R201's second example: malformed padding, unchanged and no error. -/
theorem test_unpad_lenient : after (exec .unpad (padded (onLine [0x01, 0x02, 0x03, 0x04, 0x05, 0x06, 0x03, 0x02] core64)))
    (fun t => (t.err, t.ports.bytesOut)) = some (.ok, [0x01, 0x02, 0x03, 0x04, 0x05, 0x06, 0x03, 0x02]) := by
  decide +kernel
/-- R59's example. -/
theorem test_blkDecode : after (exec .blkDecode { State.reset with ports := { Ports.idle with width := .w64, bytesIn := p128 } })
    (fun t => (t.ports.xOut, t.ports.yOut)) = some (0x6c61766975716520#64, 0x7469206564616d20#64) := by decide +kernel
/-- R60's example. -/
theorem test_blkEncode : after (exec .blkEncode { State.reset with
      ports := { Ports.idle with width := .w64, xIn := 0xa65d985179783265, yIn := 0x7860fedf5c570d18 } })
    (fun t => t.ports.bytesOut) = some c128 := by decide +kernel

/-! ### The host window -/

/-- R53 and R55: byte lane t is byte j + t. -/
theorem test_ibuf_write_lanes : after (step (given (.write 32 0x10004 0x07060504#32) State.reset))
    (fun t => t.bytesAt 0x10004 4) = some [0x04, 0x05, 0x06, 0x07] := by decide +kernel
/-- 92_eei_decisions.md D43: BUFCAP reads IBUF_BYTES, 4096 here. -/
theorem test_read_bufcap : after (step (given (.read 32 0x00010) State.reset)) (fun t => t.hostReads)
    = some [0x00001000#32] := by decide

/-! ### Witnesses: states and operands that meet the hypotheses of each obligation -/

theorem witness_DecodeEncodeAgree : (Instr.construct 7).WellFormed = true ∧ (Instr.decrypt 3 .pkcs7).WellFormed = true ∧
    (Instr.rfEnc .w64).WellFormed = true := by decide

theorem witness_DecodedCodesEncodeBack : decode (.cmd32 0x00001302#32) = .ok (.encrypt 3 .pkcs7) ∧
    decode (.uop8 0x71#8) = .ok .blkEncode := by decide

/-- A word of each case of R85, at the ends of its range. -/
theorem witness_IllegalWordsReportIllegalCommand :
    ((given (.write 32 0 0x00000121#32) core64).uop = none ∧
      (given (.write 32 0 0x00000121#32) core64).host = [.write 32 0 0x00000121#32]) ∧
    IllegalWord 0x0#32 ∧ IllegalWord 0x4#32 ∧ IllegalWord 0xF#32 ∧ IllegalWord 0x81#32 ∧ IllegalWord 0x402#32 ∧
    IllegalWord 0x803#32 ∧ IllegalWord 0x2001#32 ∧ IllegalWord 0x80000002#32 ∧ IllegalWord 0x121#32 ∧
    IllegalWord 0x1001#32 ∧ IllegalWord 0x12#32 ∧ IllegalWord 0x73#32 := by
  refine ⟨⟨rfl, rfl⟩, ?_, ?_, ?_, ?_, ?_, ?_, ?_, ?_, ?_, ?_, ?_, ?_⟩ <;>
  · simp only [IllegalWord]
    decide

theorem witness_CmdWriteRunsDecodedCommand :
    ((given (.write 32 0 0x00000021#32) core64).uop = none ∧
      (given (.write 32 0 0x00000021#32) core64).host = [.write 32 0 0x00000021#32] ∧
      decode (.cmd32 0x00000021#32) = .ok (.construct 2)) ∧
    ((given (.write 32 0 0x00000004#32) core64).uop = none ∧
      (given (.write 32 0 0x00000004#32) core64).host = [.write 32 0 0x00000004#32] ∧
      decode (.cmd32 0x00000004#32) = .error .reservedOpcode) := by decide +kernel

theorem witness_SelectedUopRuns :
    (({ core64 with uop := some 0x71#8 }).uop = some 0x71#8 ∧ decode (.uop8 0x71#8) = .ok .blkEncode) ∧
    (({ core64 with uop := some 0x72#8 }).uop = some 0x72#8 ∧ decode (.uop8 0x72#8) = .error .unusedUop) := by
  decide +kernel

/-- Both formats, at the boundary nbits = 8. -/
theorem witness_FetchWordIsRun : decodeTableWord 8 0x71 = some .blkEncode ∧ decodeTableWord 9 0x71 = some (.construct 7) ∧
    decodeTableWord 32 0x00001103 = some (.decrypt 1 .pkcs7) := by decide

theorem witness_IdleCoreHoldsItsState : core64.uop = none ∧ core64.host = [] := by decide +kernel

theorem witness_OnlyAccessesOutsideContractAreRefused :
    ((given (.read 16 0x10000) core64).uop = none ∧ (given (.read 16 0x10000) core64).host = [.read 16 0x10000]) ∧
    ((given (.write 32 0x10002 0#32) core64).uop = none ∧
      (given (.write 32 0x10002 0#32) core64).host = [.write 32 0x10002 0#32] ∧ 0x10002 % 4 ≠ 0) ∧
    ((given (.write 32 0x10004 0#32) core64).uop = none ∧
      (given (.write 32 0x10004 0#32) core64).host = [.write 32 0x10004 0#32] ∧ 0x10004 % 4 = 0) := by decide +kernel

theorem witness_RoundsAreInverse : BlockFits .w32 ⟨0xffffffff#64, 0xffffffff#64⟩ ∧
    BlockFits .w64 ⟨0xffffffffffffffff#64, 0#64⟩ := by
  unfold BlockFits
  decide

/-- The inputs of 95_test_vectors.md section 2.1, width selection. -/
theorem witness_NarrowRoundIgnoresUpperBits :
    (0xdeadbeef00000100#64).toNat % 2 ^ 32 = (0x100#64).toNat % 2 ^ 32 ∧
    (0xffffffff00000000#64).toNat % 2 ^ 32 = (0x0#64).toNat % 2 ^ 32 ∧
    (0x1234567800000000#64).toNat % 2 ^ 32 = (0x0#64).toNat % 2 ^ 32 := by decide

/-- Every tag of a clause, and tags 4 and 5 at the boundary. -/
theorem witness_VariantTableLookup :
    ∀ tag : BitVec 3, ({ State.reset with ports := { Ports.idle with tag := tag } }).ports.tag = tag ∧
      (tag.toNat ≤ 4 ∨ 4 < tag.toNat) := by decide

theorem witness_KeyExpansionFollowsTheLoop :
    (vtLookup ({ Ports.idle with tag := 0#3, bytesIn := k64_96 }).tag.toNat = some ⟨.w32, 3, 26, 8⟩ ∧
      k64_96.length = keyLength ⟨.w32, 3, 26, 8⟩) ∧
    (vtLookup ({ Ports.idle with tag := 4#3, bytesIn := counting 32 }).tag.toNat = some ⟨.w64, 4, 34, 16⟩ ∧
      (counting 32).length = keyLength ⟨.w64, 4, 34, 16⟩) := by decide

theorem witness_KeyExpansionAlwaysCompletes :
    ({ Ports.idle with tag := 4#3 }).tag.toNat ≤ 4 ∧ 4 < ({ Ports.idle with tag := 5#3 }).tag.toNat := by decide

theorem witness_LoopShapesGiveTheSameSchedule : 1 ≤ (⟨.w32, 3, 1, 8⟩ : VariantRow).rounds ∧
    1 ≤ (⟨.w64, 4, 34, 16⟩ : VariantRow).rounds := by decide

theorem witness_BlockEncryptionRunsAscendingRounds : core64.variantRow = some ⟨.w32, 3, 26, 8⟩ ∧
    core128.variantRow = some ⟨.w64, 2, 32, 16⟩ := by decide +kernel

theorem witness_BlockDecryptionRunsDescendingRounds :
    ({ core64 with variant := 4#3 }).variantRow = some ⟨.w64, 4, 34, 16⟩ ∧
    ({ core64 with variant := 1#3 }).variantRow = some ⟨.w32, 4, 27, 8⟩ := by decide +kernel

theorem witness_EngineDirectionsAreInverse : BlockFits .w32 ⟨0x74614620#64, 0x736e6165#64⟩ ∧
    BlockFits .w64 ⟨0x6c61766975716520#64, 0x7469206564616d20#64⟩ := by
  unfold BlockFits
  decide

/-- No block, and three blocks. -/
theorem witness_EcbEncryptsEachBlock :
    ((onLine [] core128).variantRow = some ⟨.w64, 2, 32, 16⟩ ∧ Aligned ⟨.w64, 2, 32, 16⟩ (onLine [] core128).ports.bytesIn) ∧
    ((onLine p64x3 core64).variantRow = some ⟨.w32, 3, 26, 8⟩ ∧
      Aligned ⟨.w32, 3, 26, 8⟩ (onLine p64x3 core64).ports.bytesIn) := by
  unfold Aligned
  decide +kernel

theorem witness_EcbDecryptsEachBlock :
    ((onLine [] core64).variantRow = some ⟨.w32, 3, 26, 8⟩ ∧ Aligned ⟨.w32, 3, 26, 8⟩ (onLine [] core64).ports.bytesIn) ∧
    ((onLine c128 core128).variantRow = some ⟨.w64, 2, 32, 16⟩ ∧
      Aligned ⟨.w64, 2, 32, 16⟩ (onLine c128 core128).ports.bytesIn) := by
  unfold Aligned
  decide +kernel

theorem witness_CbcEncryptionChainsBlocks :
    ((onLine [] core64).variantRow = some ⟨.w32, 3, 26, 8⟩ ∧ Aligned ⟨.w32, 3, 26, 8⟩ (onLine [] core64).ports.bytesIn) ∧
    ((onLine p64x3 core64).variantRow = some ⟨.w32, 3, 26, 8⟩ ∧
      Aligned ⟨.w32, 3, 26, 8⟩ (onLine p64x3 core64).ports.bytesIn) := by
  unfold Aligned
  decide +kernel

theorem witness_CbcDecryptionChainsBlocks :
    ((onLine [] core128).variantRow = some ⟨.w64, 2, 32, 16⟩ ∧ Aligned ⟨.w64, 2, 32, 16⟩ (onLine [] core128).ports.bytesIn) ∧
    ((onLine cbc64x3 core64).variantRow = some ⟨.w32, 3, 26, 8⟩ ∧
      Aligned ⟨.w32, 3, 26, 8⟩ (onLine cbc64x3 core64).ports.bytesIn) := by
  unfold Aligned
  decide +kernel

theorem witness_UnalignedDriverBuffersComplete :
    (onLine (counting 7) core64).variantRow = some ⟨.w32, 3, 26, 8⟩ ∧
    ¬ Aligned ⟨.w32, 3, 26, 8⟩ (onLine (counting 7) core64).ports.bytesIn := by
  unfold Aligned
  decide +kernel

theorem witness_ModeDriversRoundTrip : (vtLookup 0 = some ⟨.w32, 3, 26, 8⟩ ∧ Aligned ⟨.w32, 3, 26, 8⟩ p64x3) ∧
    (vtLookup 4 = some ⟨.w64, 4, 34, 16⟩ ∧ Aligned ⟨.w64, 4, 34, 16⟩ p128) := by
  unfold Aligned
  decide

theorem witness_BytewiseXorIsWordwise : (p64.length = 2 * Width.w32.bytes ∧ c64.length = 2 * Width.w32.bytes) ∧
    (p128.length = 2 * Width.w64.bytes ∧ c128.length = 2 * Width.w64.bytes) := by decide

/-- Three blocks of which block 0 is corrupted; block 2 is neither 0 nor 1. -/
theorem witness_CbcCorruptionStaysLocal :
    vtLookup 0 = some ⟨.w32, 3, 26, 8⟩ ∧ Aligned ⟨.w32, 3, 26, 8⟩ cbc64x3 ∧
    (p64 ++ cbc64x3.drop 8).length = cbc64x3.length ∧
    (∀ m, m ≠ 0 → blockSlice ⟨.w32, 3, 26, 8⟩ (p64 ++ cbc64x3.drop 8) m = blockSlice ⟨.w32, 3, 26, 8⟩ cbc64x3 m) ∧
    2 < cbc64x3.length / (⟨.w32, 3, 26, 8⟩ : VariantRow).blockBytes := by
  refine ⟨by decide, by unfold Aligned; decide, by decide, ?_, by decide⟩
  intro m hm
  have h : p64 ++ cbc64x3.drop 8 = p64 ++ cbc64x3.drop p64.length := rfl
  have h8 : m * 8 = p64.length + (m - 1) * 8 := by
    have : p64.length = 8 := rfl
    omega
  simp only [blockSlice, slice]
  rw [h8, h, List.drop_append, ← List.drop_drop]
  simp

theorem witness_PadAppendsPkcs7 :
    ((onLine p64 core64).variantRow = some ⟨.w32, 3, 26, 8⟩ ∧ (onLine p64 core64).cmd.getLsbD 12 = false) ∧
    ((padded (onLine [] core128)).variantRow = some ⟨.w64, 2, 32, 16⟩ ∧
      (padded (onLine [] core128)).cmd.getLsbD 12 = true) := by decide +kernel

/-- Each clause: no padding; empty; p = B all equal; p = 0; p = B + 1; a mismatch. -/
theorem witness_UnpadIsLenient :
    (core64.variantRow = some ⟨.w32, 3, 26, 8⟩ ∧ core64.cmd.getLsbD 12 = false) ∧
    ((padded core64).variantRow = some ⟨.w32, 3, 26, 8⟩ ∧ (padded core64).cmd.getLsbD 12 = true) ∧
    (onLine [] core64).ports.bytesIn = [] ∧
    ((List.replicate 8 0x08#8).getLast? = some 0x08#8 ∧ (0x08#8).toNat ≤ 8 ∧
      ∀ i, i < 8 → (List.replicate 8 0x08#8)[i]? = some 0x08#8) ∧
    ([0x07#8, 0x00#8].getLast? = some 0x00#8 ∧ (0x00#8).toNat ≤ 8) ∧
    ([0x07#8, 0x09#8].getLast? = some 0x09#8 ∧ ¬ (0x09#8).toNat ≤ 8) ∧
    ([0x03#8, 0x02#8].getLast? = some 0x02#8 ∧ [0x03#8, 0x02#8][0]? ≠ some 0x02#8) := by
  exact ⟨by decide +kernel, by decide +kernel, rfl, ⟨by decide, by decide, by decide⟩, by decide, by decide, by decide⟩

theorem witness_PadUnpadRoundTrip : (8 = 8 ∨ 8 = 16) ∧ (16 = 8 ∨ 16 = 16) := by decide

theorem witness_LittleEndianConversion : [0x34#8, 0x12#8].length = 2 ∧ le [0x34#8, 0x12#8] = 0x991234 % 2 ^ (8 * 2) := by
  decide

/-- The last block that fits. -/
theorem witness_BlockDecodeSplitsHalves :
    ({ Ports.idle with width := .w32, off := 16, bytesIn := p64x3 }).off + 2 * Width.w32.bytes
      ≤ ({ Ports.idle with width := .w32, off := 16, bytesIn := p64x3 }).bytesIn.length := by decide

theorem witness_BlockEncodeInvertsDecode : 16 + 2 * Width.w32.bytes ≤ p64x3.length ∧
    0 + 2 * Width.w64.bytes ≤ p128.length := by decide

/-- The last blocks of a 4096-byte buffer. -/
theorem witness_BusViewOfBlocks : Config.CapLegal State.reset.ibufBytes ∧ 16 * 255 + 16 ≤ State.reset.ibufBytes ∧
    8 * 511 + 8 ≤ State.reset.ibufBytes := by decide

/-- VARIANT = 5 and 7, without a cipher object and, for the commands, with one and ILEN at the capacity. -/
theorem witness_UnknownVariantIsReported : 4 < ({ State.reset with variant := 5#3 }).variant.toNat ∧
    4 < ({ State.reset with variant := 7#3 }).variant.toNat ∧
    (4 < ({ load [] 4096 core64 with variant := 5#3 }).variant.toNat ∧
      ({ load [] 4096 core64 with variant := 5#3 }).keyValid = true ∧
      ({ load [] 4096 core64 with variant := 5#3 }).ilen.toNat ≤ ({ load [] 4096 core64 with variant := 5#3 }).ibufBytes) := by
  decide +kernel

/-- `OperandIs` of what `load` loaded. -/
theorem witness_operand : OperandIs k64_96 (load k64_96 12 State.reset) := by
  unfold OperandIs
  decide +kernel

theorem witness_operand_key256 : OperandIs (counting 32) (load (counting 32) 32 State.reset) := by
  unfold OperandIs
  decide +kernel

/-- VAR = 4 with 32 key bytes, with 31, and VAR = 5. -/
theorem witness_ConstructBuildsCipherObject :
    (4 ≤ 4 ∧ vtLookup 4 = some ⟨.w64, 4, 34, 16⟩ ∧ (load (counting 32) 32 State.reset).ilen.toNat = 4 * (64 / 8) ∧
      OperandIs (counting 32) (load (counting 32) 32 State.reset)) ∧
    (load (counting 32) 31 State.reset).ilen.toNat ≠ 4 * (64 / 8) ∧ 4 < 5 :=
  ⟨⟨by decide, by decide, by decide, witness_operand_key256⟩, by decide, by decide⟩

theorem witness_operand_p64 : OperandIs p64 (load p64 8 core64) := by
  unfold OperandIs
  decide +kernel

theorem witness_operand_empty : OperandIs [] (load [] 0 core64) := by
  unfold OperandIs
  decide +kernel

/-- Each clause: no key; one byte too many; unaligned; an aligned operand, at the capacity and empty. -/
theorem witness_EncryptWritesCiphertext :
    Config.CapLegal State.reset.ibufBytes ∧ State.reset.keyValid = false ∧
    (core64.keyValid = true ∧ core64.ibufBytes < (load [] 4097 core64).ilen.toNat) ∧
    (core64.variantRow = some ⟨.w32, 3, 26, 8⟩ ∧ (load [] 7 core64).ilen.toNat % 8 ≠ 0) ∧
    ((load [] 4096 core64).ilen.toNat ≤ core64.ibufBytes ∧ (load [] 4096 core64).ilen.toNat % 8 = 0) ∧
    OperandIs p64 (load p64 8 core64) ∧ (load p64 8 core64).ilen.toNat % 8 = 0 :=
  ⟨by decide +kernel, by decide +kernel, by decide +kernel, by decide +kernel, by decide +kernel, witness_operand_p64,
    by decide +kernel⟩

/-- Each clause: no key; one byte too many; unaligned; empty, and one block. -/
theorem witness_DecryptWritesPlaintext :
    Config.CapLegal State.reset.ibufBytes ∧ State.reset.keyValid = false ∧
    (core64.keyValid = true ∧ core64.ibufBytes < (load [] 4097 core64).ilen.toNat) ∧
    (core64.variantRow = some ⟨.w32, 3, 26, 8⟩ ∧ (load [] 9 core64).ilen.toNat % 8 ≠ 0) ∧
    ((load [] 0 core64).ilen.toNat = 0 ∧ OperandIs [] (load [] 0 core64)) ∧
    OperandIs p64 (load p64 8 core64) ∧ (load p64 8 core64).ilen.toNat % 8 = 0 ∧ (load p64 8 core64).ilen.toNat ≠ 0 :=
  ⟨by decide +kernel, by decide +kernel, by decide +kernel, by decide +kernel, ⟨by decide +kernel, witness_operand_empty⟩,
    witness_operand_p64, by decide +kernel, by decide +kernel⟩

/-- The state after ENCRYPT ECB, PKCS7 of one block. -/
def encrypted64 : State := finishData (encryptOutput 0 .pkcs7 (load p64 8 core64)) (load p64 8 core64)

/-- The host has copied OBUF[0 .. OLEN) into IBUF and written ILEN. -/
def copied64 : State := load (encrypted64.bytesAt obufBase 16) 16 encrypted64

theorem witness_DecryptUndoesEncrypt :
    Config.CapLegal core64.ibufBytes ∧ (load p64 8 core64).keyValid = true ∧ (load p64 8 core64).variant.toNat ≤ 4 ∧
    OperandIs p64 (load p64 8 core64) ∧ exec (.encrypt 0 .pkcs7) (load p64 8 core64) = .next encrypted64 ∧
    encrypted64.err = .ok ∧ encrypted64.olen = 16#32 ∧ encrypted64.olen.toNat ≤ core64.ibufBytes ∧
    KeyKept encrypted64 copied64 ∧ copied64.bufcap = encrypted64.bufcap ∧ copied64.ilen = encrypted64.olen ∧
    ∀ i, i < 16 → copied64.byteAt (ibufBase + i) = encrypted64.byteAt (obufBase + i) :=
  ⟨by decide +kernel, by decide +kernel, by decide +kernel, witness_operand_p64, rfl, by decide +kernel, by decide +kernel,
    by decide +kernel, ⟨rfl, rfl, rfl⟩, rfl, by decide +kernel, by decide +kernel⟩

/-- Another state with the same cipher object and operand: STATUS, OLEN and OBUF differ. -/
def stale64 : State := { (fail .noKey (load p64 8 core64)).memWrite 0 (counting 8) with olen := 3#32 }

theorem witness_DataCommandsDependOnKeyAndInputOnly :
    KeyKept (load p64 8 core64) stale64 ∧ stale64.ilen = (load p64 8 core64).ilen ∧
    stale64.bufcap = (load p64 8 core64).bufcap ∧
    (∀ j, j < 8 → stale64.byteAt (ibufBase + j) = (load p64 8 core64).byteAt (ibufBase + j)) ∧
    stale64.err ≠ (load p64 8 core64).err ∧ Config.CapLegal (load p64 8 core64).ibufBytes :=
  ⟨⟨rfl, rfl, rfl⟩, rfl, rfl, by decide +kernel, by decide +kernel, by decide +kernel⟩

theorem witness_RepeatedDataCommandGivesSameResult :
    Config.CapLegal (load p64 8 core64).ibufBytes ∧ exec (.encrypt 0 .pkcs7) (load p64 8 core64) = .next encrypted64 ∧
    encrypted64.err = .ok := ⟨by decide +kernel, rfl, by decide +kernel⟩

/-- A command that fails: DECRYPT with no key. -/
theorem witness_FailedCommandChangesNothingElse :
    ∃ t, (given (.write 32 0 0x00000003#32) State.reset).uop = none ∧
      step (given (.write 32 0 0x00000003#32) State.reset) = .next t ∧ t.err ≠ .ok :=
  ⟨_, rfl, rfl, by decide +kernel⟩

/-- A command, and an input that is none. -/
theorem witness_ErrorHistoryRecordsEveryCommand :
    (∃ t, step (given (.write 32 0 0x00000003#32) State.reset) = .next t ∧ t.errLog = [.noKey]) ∧
    (∃ t, step (given (.write 32 8 0x00000003#32) State.reset) = .next t) ∧
    (∀ v rest, (given (.write 32 8 0x00000003#32) State.reset).host ≠ .write 32 0 v :: rest) :=
  ⟨⟨_, rfl, by decide +kernel⟩, ⟨_, rfl⟩, by intro v rest h; simp [given] at h⟩

theorem witness_InstructionsLeaveInputAlone :
    Config.CapLegal (load p64 8 core64).ibufBytes ∧ exec (.encrypt 0 .pkcs7) (load p64 8 core64) = .next encrypted64 :=
  ⟨by decide +kernel, rfl⟩

theorem witness_WorkingRegistersAreIrrelevant :
    (∃ var, Instr.construct 0 = .construct var) ∧
    (∃ mode pad, Instr.decrypt 1 .pkcs7 = .encrypt mode pad ∨ Instr.decrypt 1 .pkcs7 = .decrypt mode pad) :=
  ⟨⟨0, rfl⟩, ⟨1, .pkcs7, Or.inr rfl⟩⟩

/-- Each clause at the ends of its range; the buffers have 4096 and 4112 bytes. -/
theorem witness_ReadsFollowTheAddressMap :
    ((given (.read 32 0x00004) core64).uop = none ∧ (given (.read 32 0x00004) core64).host = [.read 32 0x00004]) ∧
    [0x0, 0x4, 0x8, 0xC, 0x10, 0x10000, 0x10FFC, 0x20000, 0x2100C].all (fun off => off % 4 == 0) = true ∧
    [0x10000, 0x10FFC].all (fun off => core64.inIbuf off) = true ∧
    [0x20000, 0x2100C].all (fun off => core64.inObuf off) = true := by decide +kernel

/-- The ends of the reserved ranges, of what lies outside the window, and read-only registers. -/
theorem witness_ReservedOffsetsAreRazWi :
    ((given (.read 32 0x00014) core64).uop = none ∧ (given (.read 32 0x00014) core64).host = [.read 32 0x00014]) ∧
    ((given (.write 32 0x2100C 1#32) core64).host = [.write 32 0x2100C 1#32]) ∧
    [0x14, 0xFFFC, 0x11000, 0x1FFFC, 0x21010, 0x2FFFC, 0x30000].all
      (fun off => off % 4 == 0 && !core64.inIbuf off && !core64.inObuf off) = true ∧
    [0x4, 0xC, 0x10, 0x20000].all (fun off => off % 4 == 0 && !core64.inIbuf off) = true := by decide +kernel

theorem witness_IbufAccessUsesLittleEndianLanes :
    ((given (.write 32 0x10FFC 1#32) core64).uop = none ∧
      (given (.write 32 0x10FFC 1#32) core64).host = [.write 32 0x10FFC 1#32] ∧ 0x10FFC < 0x10000 + core64.ibufBytes) ∧
    (given (.read 32 0x10000) core64).host = [.read 32 0x10000] := by decide +kernel

theorem witness_ReadReturnsLatestWrite :
    ((given (.write 32 0x8 0xFFFFFFFF#32) core64).uop = none ∧
      (given (.write 32 0x8 0xFFFFFFFF#32) core64).host = [.write 32 0x8 0xFFFFFFFF#32]) ∧
    (({ core64 with host := [.write 32 0x8 5#32, .read 32 0x8] }).uop = none ∧
      ({ core64 with host := [.write 32 0x8 5#32, .read 32 0x8] }).host = [.write 32 0x8 5#32, .read 32 0x8]) ∧
    (({ core64 with host := [.write 32 0x10FFC 5#32, .read 32 0x10FFC] }).host
      = [.write 32 0x10FFC 5#32, .read 32 0x10FFC] ∧ 0x10FFC % 4 = 0 ∧ 0x10FFC < 0x10000 + core64.ibufBytes) := by
  decide +kernel

theorem witness_StatusFieldsStandInTheirBits : core128.keyValid = true ∧ State.reset.keyValid = false := by decide +kernel

theorem witness_RstRestoresResetValues : (given .rst core64).uop = none ∧ (given .rst core64).host = [.rst] := by
  decide +kernel

/-- The write of CONSTRUCT Speck64_96 from reset. -/
def constructing64 : State := given (.write 32 0 0x00000001#32) (load k64_96 12 State.reset)

/-- What that step answers. -/
def constructed64 : State :=
  succeed 0 ((({ constructing64 with host := [], cmd := 0x00000001#32 }).installKey 0
    (expandKey ⟨.w32, 3, 26, 8⟩ constructing64.operand).1).releaseWork)

theorem witness_constructed64 : step constructing64 = .next constructed64 := rfl

theorem witness_NoKeyUntilConstructSucceeds :
    constructing64.uop = none ∧ constructing64.keyValid = false ∧ step constructing64 = .next constructed64 ∧
    constructed64.keyValid = true := ⟨rfl, by decide +kernel, witness_constructed64, rfl⟩

theorem witness_OnlyConstructOrResetChangesTheKey :
    (constructing64.uop = none ∧ step constructing64 = .next constructed64 ∧ ¬ KeyKept constructing64 constructed64) ∧
    (∃ t, step (given .rst core64) = .next t ∧ ¬ KeyKept (given .rst core64) t) := by
  refine ⟨⟨rfl, witness_constructed64, fun h => ?_⟩, ⟨_, rfl, fun h => ?_⟩⟩
  · exact absurd h.1 (by decide +kernel)
  · exact absurd h.1 (by decide +kernel)

theorem witness_BufcapNeverChanges : step constructing64 = .next constructed64 := witness_constructed64

/-- A state with a cipher object that meets the invariant, and a step from it. -/
theorem witness_StepKeepsInvariant :
    Inv (given (.write 32 0 0x00000002#32) (load p64 8 core64)) ∧
    ∃ t, step (given (.write 32 0 0x00000002#32) (load p64 8 core64)) = .next t := by
  refine ⟨⟨by decide +kernel, rfl, ?_, by decide +kernel, fun _ => ?_⟩, ⟨_, rfl⟩⟩
  · unfold MemInv
    decide +kernel
  · exact ⟨⟨.w32, 3, 26, 8⟩, k64_96, by decide +kernel, by decide +kernel, by decide +kernel⟩

/-- Two cores that look the same and hold different keys (rk[2] of K64_96 is not 0). The input is a read. -/
theorem witness_RoundKeysStayHidden :
    HostSame (given (.read 32 4) core64) { given (.read 32 4) core64 with rk := Vector.replicate 34 0#64 } ∧
    (given (.read 32 4) core64).rk[2] ≠ 0#64 ∧ (given (.read 32 4) core64).uop = none ∧
    ¬ NextIsDataCommand (given (.read 32 4) core64) := by
  refine ⟨⟨rfl, rfl, rfl, rfl, rfl, rfl, rfl, rfl, fun _ => rfl⟩, by decide +kernel, rfl, ?_⟩
  rintro ⟨v, rest, mode, pad, h, _⟩
  simp [given] at h

end Sys2Proof.Tests
end

/-!
PROOFS, byte order (00_scope.md R10): the value of a byte sequence, and that `le` and `toLE` are inverse.
-/

namespace Sys2Proof.Machine

@[simp] theorem toLE_length (n v : Nat) : (toLE n v).length = n := by
  induction n generalizing v with
  | zero => rfl
  | succ n ih => simp [toLE, ih]

/-- The weight of a byte is 256 times that of the byte before it. -/
theorem byteWeight_succ (i : Nat) : 2 ^ (8 * (i + 1)) = 256 * 2 ^ (8 * i) := by
  rw [Nat.mul_succ, Nat.pow_add, Nat.mul_comm]

/-- The weighted sum of R10: the first byte has weight 1, and every byte after it 256 times its weight in the tail. -/
theorem le_eq_sum (s : List Byte) :
    le s = ((List.range s.length).map fun i => (s[i]?.getD 0#8).toNat * 2 ^ (8 * i)).sum := by
  induction s with
  | nil => rfl
  | cons b bs ih =>
    have htail : ((List.range bs.length).map fun i => (bs[i]?.getD 0#8).toNat * 2 ^ (8 * (i + 1))).sum
        = 256 * le bs := by
      simp only [ih, ← List.sum_map_mul_left, byteWeight_succ, Nat.mul_left_comm]
    simp [le, List.range_succ_eq_map, Function.comp_def, htail]

theorem le_toLE (n v : Nat) : le (toLE n v) = v % 2 ^ (8 * n) := by
  induction n generalizing v with
  | zero => simp [toLE, le, Nat.mod_one]
  | succ n ih =>
    calc le (toLE (n + 1) v)
      _ = v % 256 + 256 * (v / 256 % 2 ^ (8 * n)) := by simp [toLE, le, ih]
      _ = v % (256 * 2 ^ (8 * n)) := (Nat.mod_mul).symm
      _ = v % 2 ^ (8 * (n + 1)) := by rw [byteWeight_succ]

/-- Byte sequences of one length are told apart by their values. -/
theorem le_inj {s t : List Byte} (hlen : s.length = t.length) (h : le s = le t) : s = t := by
  induction s generalizing t with
  | nil => exact (List.length_eq_zero_iff.mp hlen.symm).symm
  | cons b bs ih =>
    match t, hlen with
    | c :: cs, hlen =>
      have hsum : b.toNat + 256 * le bs = c.toNat + 256 * le cs := h
      have hb : b.toNat < 256 := b.isLt
      have hc : c.toNat < 256 := c.isLt
      have hhead : b = c := BitVec.eq_of_toNat_eq (by omega)
      have htail : bs = cs := ih (Nat.succ.inj hlen) (by omega)
      rw [hhead, htail]

/-- Settles O32: the sum by induction on the bytes, the inverse by induction on their number. -/
theorem littleEndianConversion : Obligations.LittleEndianConversion :=
  ⟨le_eq_sum, fun n v => ⟨toLE_length n v, le_toLE n v, fun _ hs h =>
    le_inj (hs.trans (toLE_length n v).symm) (h.trans (le_toLE n v).symm)⟩⟩

end Sys2Proof.Machine

/-!
PROOFS, lengths of byte results: what a mode driver, the padder and the unpadder return is no longer than OBUF.
-/

namespace Sys2Proof.Machine

@[simp] theorem blockBytesOf_length (w : Width) (b : Block) : (blockBytesOf w b).length = 2 * w.bytes := by
  simp [blockBytesOf, Nat.two_mul]

@[simp] theorem throughEngine_length (w : Width) (engine : Block → Block) (s : List Byte) :
    (throughEngine w engine s).length = 2 * w.bytes :=
  blockBytesOf_length w _

@[simp] theorem blocksOf_length (B count : Nat) (s : List Byte) : (blocksOf B count s).length = count := by
  induction count generalizing s with
  | zero => rfl
  | succ count ih => simp [blocksOf, ih]

theorem ecbRun_length (w : Width) (engine : Block → Block) (ps : List (List Byte)) :
    (ecbRun w engine ps).length = ps.length * (2 * w.bytes) := by
  induction ps with
  | nil => simp [ecbRun]
  | cons p ps ih =>
    rw [ecbRun, List.length_append, ih, throughEngine_length, List.length_cons, Nat.succ_mul ps.length,
      Nat.add_comm]

theorem cbcEncRun_length (w : Width) (engine : Block → Block) (prev : List Byte) (ps : List (List Byte)) :
    (cbcEncRun w engine prev ps).length = ps.length * (2 * w.bytes) := by
  induction ps generalizing prev with
  | nil => simp [cbcEncRun]
  | cons p ps ih =>
    simp only [cbcEncRun, List.length_append, ih, throughEngine_length, List.length_cons,
      Nat.succ_mul ps.length, Nat.add_comm (2 * w.bytes)]

/-- A block is XORed with the block before it, so a short one in the chain would cut the result. -/
theorem cbcDecRun_length_le (w : Width) (engine : Block → Block) (prev : List Byte) (cs : List (List Byte)) :
    (cbcDecRun w engine prev cs).length ≤ cs.length * (2 * w.bytes) := by
  induction cs generalizing prev with
  | nil => simp [cbcDecRun]
  | cons c cs ih =>
    have hrest := ih c
    simp only [cbcDecRun, List.length_append, xorBytes, List.length_zipWith, throughEngine_length, List.length_cons,
      Nat.succ_mul (cs.length)]
    omega

/-- The whole blocks of a buffer hold no more bytes than the buffer. -/
theorem bufBlocks_length_mul_le {tag : Nat} {row : VariantRow} (h : vtLookup tag = some row) (buf : List Byte) :
    (bufBlocks row buf).length * (2 * row.width.bytes) ≤ buf.length := by
  rw [bufBlocks, blocksOf_length, ← (blockBytes_of_row h).1]
  exact Nat.div_mul_le_self _ _

section
variable {tag : Nat} {row : VariantRow} (h : vtLookup tag = some row) (rks : List Word) (buf : List Byte)
include h

theorem ecbEncBytes_length_le : (ecbEncBytes row rks buf).length ≤ buf.length :=
  (ecbRun_length ..).trans_le (bufBlocks_length_mul_le h buf)

theorem ecbDecBytes_length_le : (ecbDecBytes row rks buf).length ≤ buf.length :=
  (ecbRun_length ..).trans_le (bufBlocks_length_mul_le h buf)

theorem cbcEncBytes_length_le : (cbcEncBytes row rks buf).length ≤ buf.length :=
  (cbcEncRun_length ..).trans_le (bufBlocks_length_mul_le h buf)

theorem cbcDecBytes_length_le : (cbcDecBytes row rks buf).length ≤ buf.length :=
  (cbcDecRun_length_le ..).trans (bufBlocks_length_mul_le h buf)

end

/-- Padding adds at most one block. -/
theorem padBytes_length_le (B : Nat) (en : Padding) (data : List Byte) :
    (padBytes B en data).length ≤ data.length + B := by
  cases en with
  | none => exact Nat.le_add_right _ _
  | pkcs7 =>
    simp only [padBytes, List.length_append, List.length_replicate]
    omega

/-- Unpadding only ever takes bytes away. -/
theorem unpadBytes_length_le {B : Nat} {en : Padding} {data out : List Byte} (h : unpadBytes B en data = .ok out) :
    out.length ≤ data.length := by
  cases en with
  | none =>
    cases h
    exact le_rfl
  | pkcs7 =>
    simp only [unpadBytes] at h
    split at h
    · cases h
    · split_ifs at h <;> cases h
      · exact le_rfl
      · exact le_rfl
      · exact List.length_take_le' _ _
      · exact le_rfl

/-- A data command's result is computed only with a cipher object whose VARIANT has a row and with an operand that
lies in IBUF. -/
theorem dataChecks_ok {s : State} {row : VariantRow} (h : dataChecks s = .ok row) :
    vtLookup s.variant.toNat = some row ∧ s.operand.length ≤ s.ibufBytes := by
  rcases dataChecks_cases s with ⟨-, e⟩ | ⟨-, -, e⟩ | ⟨-, -, -, e⟩ | ⟨row', -, hlen, hrow, e⟩ <;> cases h.symm.trans e
  exact ⟨hrow, s.operand_length.trans_le hlen⟩

/-- R223: OBUF has room for the operand and one block of padding. -/
theorem encryptOutput_length_le {mode : Nat} {pad : Padding} {s : State} {out : List Byte}
    (h : encryptOutput mode pad s = .ok out) : out.length ≤ s.obufBytes := by
  unfold encryptOutput at h
  split at h
  · cases h
  next row hchecks =>
    obtain ⟨hrow, hoperand⟩ := dataChecks_ok hchecks
    have hblock : row.blockBytes ≤ 16 := by rcases (blockBytes_of_row hrow).2 with hB | hB <;> omega
    have hpadded : (padBytes row.blockBytes pad s.operand).length ≤ s.obufBytes :=
      (padBytes_length_le ..).trans (Nat.add_le_add hoperand hblock)
    split at h
    · cases h
    · split at h <;> cases h
      · exact (ecbEncBytes_length_le hrow ..).trans hpadded
      · exact (cbcEncBytes_length_le hrow ..).trans hpadded

/-- R224: a decrypted operand is no longer than IBUF. -/
theorem decryptOutput_length_le {mode : Nat} {pad : Padding} {s : State} {out : List Byte}
    (h : decryptOutput mode pad s = .ok out) : out.length ≤ s.obufBytes := by
  unfold decryptOutput at h
  split at h
  · cases h
  next row hchecks =>
    obtain ⟨hrow, hoperand⟩ := dataChecks_ok hchecks
    have hroom : s.operand.length ≤ s.obufBytes := Nat.le_add_right_of_le hoperand
    split at h
    · cases h
    · split at h
      · exact (unpadBytes_length_le h).trans ((ecbDecBytes_length_le hrow ..).trans hroom)
      · exact (unpadBytes_length_le h).trans ((cbcDecBytes_length_le hrow ..).trans hroom)
      · cases h

end Sys2Proof.Machine

/-!
PROOFS, the cipher object (10_state.md R22, R23): the expanded key has T words, and RK[0 .. T) holds them.
-/

namespace Sys2Proof.Machine

@[simp] theorem schedLoop_length (row : VariantRow) (count i : Nat) (st : Sched) :
    (schedLoop row count i st).1.length = count := by
  induction count generalizing i st with
  | zero => rfl
  | succ count ih => simp [schedLoop, ih]

/-- Both loop shapes of R142 record T words, for a row with at least one round. -/
theorem expandKey_length {row : VariantRow} (hpos : 0 < row.rounds) (kb : List Byte) :
    (expandKey row kb).1.length = row.rounds := by
  unfold expandKey
  split
  · simp [expandShort]
  · simp only [expandLong, List.length_append, schedLoop_length, List.length_singleton]
    omega

/-- The round-key file holds every schedule of the table (R22). -/
theorem rounds_of_row {tag : Nat} {row : VariantRow} (h : vtLookup tag = some row) :
    0 < row.rounds ∧ row.rounds ≤ 34 := by
  rcases vtLookup_cases h with ⟨-, rfl⟩ | ⟨-, rfl⟩ | ⟨-, rfl⟩ | ⟨-, rfl⟩ | ⟨-, rfl⟩ <;> decide

/-- A tag of the table fits the VARIANT field. -/
theorem toNat_variant_of_row {tag : Nat} {row : VariantRow} (h : vtLookup tag = some row) :
    (BitVec.ofNat 3 tag).toNat = tag := by
  have htag : tag ≤ 4 := by
    by_contra hgt
    rw [(vtLookup_eq_none_iff tag).mpr (by omega)] at h
    cases h
  rw [BitVec.toNat_ofNat]
  omega

/-- A schedule that fits the round-key file is what its first entries hold. -/
theorem take_rkFileOf {schedule : List Word} (h : schedule.length ≤ 34) (draw : Nat) :
    (rkFileOf schedule draw).toList.take schedule.length = schedule := by
  apply List.ext_getElem
  · simpa using h
  · intro i _ hi
    simp [rkFileOf, hi]

/-- CONSTRUCT installs a cipher object that meets the invariant (R23). -/
theorem keyInv_installKey {var : Nat} {row : VariantRow} {s : State} {kb : List Byte} (hrow : vtLookup var = some row)
    (hlen : kb.length = keyLength row) : KeyInv (s.installKey var (expandKey row kb).1) := by
  intro _
  obtain ⟨hpos, hfile⟩ := rounds_of_row hrow
  have hsched := expandKey_length hpos kb
  refine ⟨row, kb, ?_, hlen, ?_⟩
  · rw [State.variantRow, installKey_variant, toNat_variant_of_row hrow, hrow]
  · rw [State.roundKeys, installKey_rk]
    exact hsched ▸ take_rkFileOf (hsched.trans_le hfile) s.draws

theorem keyInv_of_keyKept {s t : State} (h : KeyKept s t) (hs : KeyInv s) : KeyInv t := by
  obtain ⟨hvalid, hvariant, hrk⟩ := h
  intro ht
  simpa only [State.variantRow, State.roundKeys, hvariant, hrk] using hs (hvalid ▸ ht)

end Sys2Proof.Machine

/-!
PROOFS, the invariant of a safe run: each thing that a step can do keeps it (`step_cases` lists them).
-/

namespace Sys2Proof.Machine

theorem inIbuf_iff (s : State) (a : Nat) : s.inIbuf a = true ↔ ibufBase ≤ a ∧ a < ibufBase + s.ibufBytes :=
  decide_eq_true_iff

theorem inObuf_iff (s : State) (a : Nat) : s.inObuf a = true ↔ obufBase ≤ a ∧ a < obufBase + s.obufBytes :=
  decide_eq_true_iff

/-- Bytes written inside the buffers keep the memory canonical and inside the buffers. -/
theorem memInv_writeBytes {s : State} (h : MemInv s) {base : Nat} {vs : List Byte}
    (hin : ∀ a, base ≤ a → a < base + vs.length → s.inIbuf a = true ∨ s.inObuf a = true) :
    MemInv { s with mem := Memory.writeBytes s.mem base vs } := by
  obtain ⟨hwf, haddr⟩ := h
  refine ⟨Memory.wf_writeBytes vs hwf base, fun a ha => ?_⟩
  rcases (Memory.mem_addrs_writeBytes vs s.mem base a).mp ha with ⟨hlo, hhi⟩ | hold
  · exact hin a hlo hhi
  · exact haddr a hold

/-- The invariant depends on the capacity, the select lines, the memory, OLEN and the cipher object only. -/
theorem Inv.of_kept {s t : State} (h : Inv s) (hcap : t.bufcap = s.bufcap) (huop : t.uop = s.uop)
    (hmem : t.mem = s.mem) (holen : t.olen = s.olen) (hkey : KeyKept s t) : Inv t where
  capLegal := by simpa only [State.ibufBytes, hcap] using h.capLegal
  uopIdle := huop.trans h.uopIdle
  memInv := by
    simpa only [MemInv, inIbuf_iff, inObuf_iff, State.obufBytes, State.ibufBytes, hmem, hcap] using h.memInv
  olenBound := by simpa only [State.obufBytes, State.ibufBytes, holen, hcap] using h.olenBound
  keyInv := keyInv_of_keyKept hkey h.keyInv

theorem inv_fail {s : State} (h : Inv s) (code : ErrCode) : Inv (fail code s) where
  capLegal := h.capLegal
  uopIdle := h.uopIdle
  memInv := h.memInv
  olenBound := Nat.zero_le _
  keyInv := h.keyInv

theorem inv_succeed {s : State} (h : Inv s) {len : Nat} (hlen : len ≤ s.obufBytes) : Inv (succeed len s) where
  capLegal := h.capLegal
  uopIdle := h.uopIdle
  memInv := h.memInv
  olenBound := ((BitVec.toNat_ofNat ..).trans_le (Nat.mod_le ..)).trans hlen
  keyInv := h.keyInv

theorem inv_releaseWork {s : State} (h : Inv s) : Inv s.releaseWork :=
  h.of_kept rfl rfl rfl rfl ⟨rfl, rfl, rfl⟩

theorem inv_assertReset {s : State} (h : Inv s) : Inv (assertReset s) where
  capLegal := h.capLegal
  uopIdle := rfl
  memInv := ⟨List.Pairwise.nil, fun _ ha => absurd ha List.not_mem_nil⟩
  olenBound := Nat.zero_le _
  keyInv := fun hvalid => nomatch hvalid

theorem inv_memWrite {s : State} (h : Inv s) {out : List Byte} (hlen : out.length ≤ s.obufBytes) :
    Inv (s.memWrite 0 out) where
  capLegal := h.capLegal
  uopIdle := h.uopIdle
  memInv := memInv_writeBytes h.memInv fun a hlo hhi => .inr ((inObuf_iff s a).mpr (by omega))
  olenBound := h.olenBound
  keyInv := h.keyInv

theorem inv_installKey {s : State} (h : Inv s) {var : Nat} {row : VariantRow} {kb : List Byte}
    (hrow : vtLookup var = some row) (hlen : kb.length = keyLength row) :
    Inv (s.installKey var (expandKey row kb).1) where
  capLegal := h.capLegal
  uopIdle := h.uopIdle
  memInv := h.memInv
  olenBound := h.olenBound
  keyInv := keyInv_installKey hrow hlen

/-- A word at a 4-byte-aligned offset inside IBUF does not cross its end, since the capacity is a multiple of 16. -/
theorem inv_hostWrite {s : State} (h : Inv s) {off : Nat} (halign : off % 4 = 0) (v : BusWord) :
    Inv (hostWrite off v s) := by
  unfold hostWrite
  split_ifs with hilen hibuf
  · exact h.of_kept rfl rfl rfl rfl ⟨rfl, rfl, rfl⟩
  · obtain ⟨hcap, -, -⟩ := h.capLegal
    obtain ⟨hlo, hhi⟩ := (inIbuf_iff s off).mp hibuf
    have hword : ∀ a, off ≤ a → a < off + (lanes v).length → s.inIbuf a = true := by
      intro a hoff hlanes
      rw [inIbuf_iff]
      simp only [lanes, List.length_cons, List.length_nil, ibufBase] at *
      omega
    exact {
      capLegal := h.capLegal
      uopIdle := h.uopIdle
      memInv := memInv_writeBytes h.memInv fun a hoff hlanes => .inl (hword a hoff hlanes)
      olenBound := h.olenBound
      keyInv := h.keyInv }
  · exact h

theorem inv_finishData {s : State} (h : Inv s) {result : Except ErrCode (List Byte)}
    (hlen : ∀ out, result = .ok out → out.length ≤ s.obufBytes) : Inv (finishData result s) := by
  cases result with
  | error code => exact inv_fail h code
  | ok out => exact inv_succeed (inv_releaseWork (inv_memWrite h (hlen out rfl))) (hlen out rfl)

theorem inv_execConstruct {s t : State} (h : Inv s) {var : Nat} (ht : execConstruct var s = .next t) : Inv t := by
  rcases execConstruct_cases var s with ⟨code, -, e⟩ | ⟨row, hrow, hlen, e⟩ <;> cases ht.symm.trans e
  · exact inv_fail h code
  · have hkey := inv_installKey h hrow (s.operand_length.trans hlen)
    exact inv_succeed (inv_releaseWork hkey) (Nat.zero_le _)

theorem inv_execEncrypt {s t : State} (h : Inv s) {mode : Nat} {pad : Padding}
    (ht : execEncrypt mode pad s = .next t) : Inv t := by
  cases ht
  exact inv_finishData h fun _ => encryptOutput_length_le

theorem inv_execDecrypt {s t : State} (h : Inv s) {mode : Nat} {pad : Padding}
    (ht : execDecrypt mode pad s = .next t) : Inv t := by
  cases ht
  exact inv_finishData h fun _ => decryptOutput_length_le

/-- A command word runs a command, so no internal operation comes in here. -/
theorem inv_exec_of_decodeCmd {s t : State} (h : Inv s) {c : BitVec 32} {i : Instr} (hi : decode (.cmd32 c) = .ok i)
    (ht : exec i s = .next t) : Inv t := by
  rcases decodeCmd_is_command hi with ⟨var, rfl⟩ | ⟨mode, pad, rfl⟩ | ⟨mode, pad, rfl⟩
  · exact inv_execConstruct h ht
  · exact inv_execEncrypt h ht
  · exact inv_execDecrypt h ht

/-- Settles O57, by the cases of a step with idle select lines. -/
theorem stepKeepsInvariant : Obligations.StepKeepsInvariant := by
  intro s t h ht
  have htaken (rest : List HostInput) (cmd : BusWord) : Inv { s with host := rest, cmd := cmd } :=
    h.of_kept rfl rfl rfl rfl ⟨rfl, rfl, rfl⟩
  rcases step_cases h.uopIdle ht with ⟨-, rfl⟩ | ⟨rest, -, rfl⟩ | ⟨off, rest, -, -, rfl⟩ |
    ⟨off, v, rest, -, halign, -, rfl⟩ | ⟨v, rest, -, -, -, rfl⟩ | ⟨v, rest, i, -, hi, hexec⟩
  · exact h
  · exact inv_assertReset (htaken rest s.cmd)
  · exact (htaken rest s.cmd).of_kept rfl rfl rfl rfl ⟨rfl, rfl, rfl⟩
  · exact inv_hostWrite (htaken rest s.cmd) halign v
  · exact inv_fail (htaken rest v) .illegalCommand
  · exact inv_exec_of_decodeCmd (htaken rest v) hi hexec

end Sys2Proof.Machine

/-!
PROOFS, the step with idle select lines, read forwards: what it answers for each kind of host input (20_memory.md R50
to R55, 46_dispatcher.md R220).
-/

namespace Sys2Proof.Machine

section
variable {s : State} (hu : s.uop = none)
include hu

theorem step_of_noInput (hh : s.host = []) : step s = .next s := by
  simp only [step, nextIssue, hu, hh]

theorem step_of_rst {rest : List HostInput} (hh : s.host = .rst :: rest) :
    step s = .next (assertReset { s with host := rest }) := by
  simp only [step, nextIssue, hu, hh, issueInput]

theorem step_of_read {off : Nat} {rest : List HostInput} (hh : s.host = .read 32 off :: rest) (ho : off % 4 = 0) :
    step s = .next (hostRead off { s with host := rest }) := by
  simp [step, nextIssue, hu, hh, issueInput, inContract, ho]

theorem step_of_write {off : Nat} {v : BusWord} {rest : List HostInput} (hh : s.host = .write 32 off v :: rest)
    (ho : off % 4 = 0) (h0 : off ≠ 0) : step s = .next (hostWrite off v { s with host := rest }) := by
  simp [step, nextIssue, hu, hh, issueInput, inContract, ho, issueWrite, h0]

theorem step_of_command {v : BusWord} {rest : List HostInput} {i : Instr} (hh : s.host = .write 32 0 v :: rest)
    (hi : decode (.cmd32 v) = .ok i) : step s = exec i { s with host := rest, cmd := v } := by
  simp [step, nextIssue, hu, hh, issueInput, inContract, issueWrite, issueCode, hi]

theorem step_of_illegalWord {v : BusWord} {rest : List HostInput} {e : DecodeError}
    (hh : s.host = .write 32 0 v :: rest) (he : decode (.cmd32 v) = .error e) :
    step s = .next (fail .illegalCommand { s with host := rest, cmd := v }) := by
  simp [step, nextIssue, hu, hh, issueInput, inContract, issueWrite, issueCode, he, illegalCommand]

theorem step_of_readOutsideContract {width off : Nat} {rest : List HostInput} (hh : s.host = .read width off :: rest)
    (hc : ¬(width = 32 ∧ off % 4 = 0)) : step s = .refused .outsideHostContract := by
  have hno : inContract width off = false := by simpa [inContract] using hc
  simp [step, nextIssue, hu, hh, issueInput, hno]

theorem step_of_writeOutsideContract {width off : Nat} {v : BusWord} {rest : List HostInput}
    (hh : s.host = .write width off v :: rest) (hc : ¬(width = 32 ∧ off % 4 = 0)) :
    step s = .refused .outsideHostContract := by
  have hno : inContract width off = false := by simpa [inContract] using hc
  simp [step, nextIssue, hu, hh, issueInput, hno]

end

/-- A step with a selected operation runs it, with the select lines idle again. -/
theorem exec_of_step_selected {s t : State} {u : BitVec 8} (hu : s.uop = some u) (ht : step s = .next t) :
    ∃ i, exec i { s with uop := none } = .next t := by
  simp only [step, nextIssue, hu, issueCode] at ht
  cases hd : decode (.uop8 u) with
  | ok i => exact ⟨i, by simpa only [hd] using ht⟩
  | error e => simp [hd] at ht

/-- A host write at an offset other than CMD stores into ILEN, or into IBUF, or is ignored (R51, R54, R55). -/
theorem hostWrite_cases (off : Nat) (v : BusWord) (s : State) :
    (off = 8 ∧ hostWrite off v s = { s with ilen := v }) ∨
    (off ≠ 8 ∧ s.inIbuf off = true ∧ hostWrite off v s = { s with mem := Memory.writeBytes s.mem off (lanes v) }) ∨
    (off ≠ 8 ∧ s.inIbuf off = false ∧ hostWrite off v s = s) := by
  unfold hostWrite
  by_cases hilen : off = 8
  · exact .inl ⟨hilen, if_pos hilen⟩
  · cases hin : s.inIbuf off
    · exact .inr (.inr ⟨hilen, rfl, by simp [hilen]⟩)
    · exact .inr (.inl ⟨hilen, rfl, by simp [hilen]⟩)

end Sys2Proof.Machine

/-!
PROOFS, what the host learns (10_state.md R36): two cores that look the same to the host, with the same inputs to come
and the same values read, still look the same after each thing a step can do but ENCRYPT and DECRYPT.
-/

namespace Sys2Proof.Machine

/-- The two cores of R36: all that a host read can return is the same in both, their inputs and the values read so far
are the same, and no operation is selected. Their RK may differ. -/
structure LooksAlike (s s' : State) : Prop where
  cmd : s'.cmd = s.cmd
  err : s'.err = s.err
  keyValid : s'.keyValid = s.keyValid
  statusVariant : s'.statusVariant = s.statusVariant
  ilen : s'.ilen = s.ilen
  olen : s'.olen = s.olen
  bufcap : s'.bufcap = s.bufcap
  epoch : s'.epoch = s.epoch
  bytes : BytesKept s s'
  uop : s.uop = none
  uop' : s'.uop = none
  host : s'.host = s.host
  hostReads : s'.hostReads = s.hostReads

theorem looksAlike_iff {s s' : State} : LooksAlike s s' ↔
    HostSame s s' ∧ s.uop = none ∧ s'.uop = none ∧ s'.host = s.host ∧ s'.hostReads = s.hostReads :=
  ⟨fun h => ⟨⟨h.cmd, h.err, h.keyValid, h.statusVariant, h.ilen, h.olen, h.bufcap, h.epoch, h.bytes⟩,
      h.uop, h.uop', h.host, h.hostReads⟩,
    fun ⟨⟨cmd, err, keyValid, statusVariant, ilen, olen, bufcap, epoch, bytes⟩, uop, uop', host, hostReads⟩ =>
      { cmd, err, keyValid, statusVariant, ilen, olen, bufcap, epoch, bytes, uop, uop', host, hostReads }⟩

/-- A run of bytes written over two memories that read alike: inside the run the bytes are those written. -/
theorem bytesKept_writeBytes {s s' : State} (h : BytesKept s s') (base : Nat) (vs : List Byte) :
    BytesKept { s with mem := Memory.writeBytes s.mem base vs }
      { s' with mem := Memory.writeBytes s'.mem base vs } := by
  intro a
  have ha := h a
  simp only [State.byteAt, Memory.lookup_writeBytes] at ha ⊢
  split
  · next hin => simp [show a - base < vs.length by omega]
  · exact ha

theorem constructChecks_congr {s s' : State} (h : s'.ilen = s.ilen) (var : Nat) :
    constructChecks var s' = constructChecks var s := by
  simp only [constructChecks, h]

namespace LooksAlike

variable {s s' : State} (h : LooksAlike s s')
include h

theorem inIbuf_eq (off : Nat) : s'.inIbuf off = s.inIbuf off := by
  rw [Bool.eq_iff_iff, inIbuf_iff, inIbuf_iff, State.ibufBytes, State.ibufBytes, h.bufcap]

theorem inObuf_eq (off : Nat) : s'.inObuf off = s.inObuf off := by
  rw [Bool.eq_iff_iff, inObuf_iff, inObuf_iff, State.obufBytes, State.obufBytes, State.ibufBytes, State.ibufBytes,
    h.bufcap]

theorem statusWord_eq : s'.statusWord = s.statusWord := by
  simp only [State.statusWord, h.err, h.keyValid, h.statusVariant]

theorem bytesAt_eq (off n : Nat) : s'.bytesAt off n = s.bytesAt off n :=
  List.map_congr_left fun i _ => h.bytes (off + i)

/-- What a read returns is read off the fields that agree. -/
theorem busRead_eq (off : Nat) : s'.busRead off = s.busRead off := by
  simp only [State.busRead, h.cmd, h.statusWord_eq, h.ilen, h.olen, h.bufcap, h.inIbuf_eq, h.inObuf_eq, h.bytesAt_eq]

theorem takeInput (rest : List HostInput) : LooksAlike { s with host := rest } { s' with host := rest } :=
  { h with host := rfl }

theorem takeCommand (rest : List HostInput) (v : BusWord) :
    LooksAlike { s with host := rest, cmd := v } { s' with host := rest, cmd := v } :=
  { h with host := rfl, cmd := rfl }

/-- Both cores count the same reset, so they draw the same unwritten bytes (logs 5 and 13). -/
theorem assertReset : LooksAlike (assertReset s) (assertReset s') where
  cmd := rfl
  err := rfl
  keyValid := rfl
  statusVariant := rfl
  ilen := rfl
  olen := rfl
  bufcap := h.bufcap
  epoch := congrArg (· + 1) h.epoch
  bytes := bytesKept_of_mem rfl (congrArg (· + 1) h.epoch)
  uop := rfl
  uop' := rfl
  host := h.host
  hostReads := h.hostReads

theorem hostRead (off : Nat) : LooksAlike (hostRead off s) (hostRead off s') :=
  { h with hostReads := congrArg₂ List.cons (h.busRead_eq off) h.hostReads }

theorem hostWrite (off : Nat) (v : BusWord) : LooksAlike (hostWrite off v s) (hostWrite off v s') := by
  simp only [Machine.hostWrite, h.inIbuf_eq]
  split_ifs
  · exact { h with ilen := rfl }
  · exact { h with bytes := bytesKept_writeBytes h.bytes off (lanes v) }
  · exact h

theorem fail (code : ErrCode) : LooksAlike (fail code s) (fail code s') :=
  { h with err := rfl, olen := rfl }

/-- CONSTRUCT shows ERR, KEY_VALID and VARIANT, never the keys that it installs. -/
theorem execConstruct (var : Nat) :
    ∃ t t', execConstruct var s = .next t ∧ execConstruct var s' = .next t' ∧ LooksAlike t t' := by
  simp only [Machine.execConstruct, constructChecks_congr h.ilen]
  cases constructChecks var s with
  | error code => exact ⟨_, _, rfl, rfl, h.fail code⟩
  | ok row => exact ⟨_, _, rfl, rfl, { h with err := rfl, olen := rfl, keyValid := rfl, statusVariant := rfl }⟩

/-- A write to CMD of a word that is no data command: it is illegal, or it decodes to CONSTRUCT. -/
theorem step_of_cmdWrite {v : BusWord} {rest : List HostInput} (hh : s.host = .write 32 0 v :: rest)
    (hdata : ¬ NextIsDataCommand s) :
    ∃ t t', step s = .next t ∧ step s' = .next t' ∧ LooksAlike t t' := by
  have hh' := h.host.trans hh
  have hcmd := h.takeCommand rest v
  cases hd : decode (.cmd32 v) with
  | error e => exact ⟨_, _, step_of_illegalWord h.uop hh hd, step_of_illegalWord h.uop' hh' hd, hcmd.fail _⟩
  | ok i =>
    rcases decodeCmd_is_command hd with ⟨var, rfl⟩ | ⟨mode, pad, rfl⟩ | ⟨mode, pad, rfl⟩
    · rw [step_of_command h.uop hh hd, step_of_command h.uop' hh' hd]
      exact hcmd.execConstruct var
    · exact absurd ⟨v, rest, mode, pad, hh, .inl hd⟩ hdata
    · exact absurd ⟨v, rest, mode, pad, hh, .inr hd⟩ hdata

/-- The step of two cores that look alike, by the kind of the input. -/
theorem step (hdata : ¬ NextIsDataCommand s) :
    (∃ t t', step s = .next t ∧ step s' = .next t' ∧ LooksAlike t t') ∨
    ∃ r, step s = .refused r ∧ step s' = .refused r := by
  match hh : s.host with
  | [] => exact .inl ⟨s, s', step_of_noInput h.uop hh, step_of_noInput h.uop' (h.host.trans hh), h⟩
  | .rst :: rest =>
    exact .inl ⟨_, _, step_of_rst h.uop hh, step_of_rst h.uop' (h.host.trans hh), (h.takeInput rest).assertReset⟩
  | .read width off :: rest =>
    have hh' := h.host.trans hh
    by_cases hc : width = 32 ∧ off % 4 = 0
    · obtain ⟨rfl, ho⟩ := hc
      exact .inl ⟨_, _, step_of_read h.uop hh ho, step_of_read h.uop' hh' ho, (h.takeInput rest).hostRead off⟩
    · exact .inr ⟨_, step_of_readOutsideContract h.uop hh hc, step_of_readOutsideContract h.uop' hh' hc⟩
  | .write width off v :: rest =>
    have hh' := h.host.trans hh
    by_cases hc : width = 32 ∧ off % 4 = 0
    · obtain ⟨rfl, ho⟩ := hc
      by_cases h0 : off = 0
      · subst h0
        exact .inl (h.step_of_cmdWrite hh hdata)
      · exact .inl ⟨_, _, step_of_write h.uop hh ho h0, step_of_write h.uop' hh' ho h0,
          (h.takeInput rest).hostWrite off v⟩
    · exact .inr ⟨_, step_of_writeOutsideContract h.uop hh hc, step_of_writeOutsideContract h.uop' hh' hc⟩

end LooksAlike

/-- Settles O59: `LooksAlike` is kept by each kind of input but ENCRYPT and DECRYPT. -/
theorem roundKeysStayHidden : Obligations.RoundKeysStayHidden := by
  intro s s' hsame hu hu' hhost hreads hdata
  rcases (looksAlike_iff.mpr ⟨hsame, hu, hu', hhost, hreads⟩).step hdata with ⟨t, t', ht, ht', h⟩ | hrefused
  · exact .inl ⟨t, t', ht, ht', looksAlike_iff.mp h⟩
  · exact .inr hrefused

end Sys2Proof.Machine

/-!
PROOFS, what an instruction leaves alone (10_state.md R30, R32, R33): the host's side and every byte below OBUF.
-/

namespace Sys2Proof.Machine

/-- The host's side is unchanged, and so is every byte below OBUF, IBUF among them. -/
def InputSideKept (s t : State) : Prop := HostSideKept s t ∧ ∀ a, a < obufBase → t.byteAt a = s.byteAt a

theorem inputSideKept_of_bytesKept {s t : State} (hhost : HostSideKept s t) (hbytes : BytesKept s t) :
    InputSideKept s t :=
  ⟨hhost, fun a _ => hbytes a⟩

theorem inputSideKept_of_uopFrame {s t : State} (h : UopFrame s t) : InputSideKept s t := by
  obtain ⟨-, hbytes, hhost, -⟩ := h
  exact inputSideKept_of_bytesKept hhost hbytes

theorem inputSideKept_fail (code : ErrCode) (s : State) : InputSideKept s (fail code s) :=
  inputSideKept_of_bytesKept (hostSideKept_fail code s) (bytesKept_fail code s)

/-- A change of the working registers, the ports and the draw counter. -/
theorem inputSideKept_of_inner (s : State) (wk : Work) (po : Ports) (d : Nat) :
    InputSideKept s { s with work := wk, ports := po, draws := d } :=
  inputSideKept_of_uopFrame (uopFrame_of_inner s wk po d)

/-- A change of the round keys, as KS_EXPAND makes it. -/
theorem inputSideKept_of_roundKeys (s : State) (rk : Vector Word 34) (wk : Work) (d : Nat) :
    InputSideKept s { s with rk := rk, work := wk, draws := d } :=
  inputSideKept_of_bytesKept ⟨rfl, rfl, rfl, rfl, rfl, rfl, rfl⟩ (bytesKept_of_mem rfl rfl)

theorem inputSideKept_engineUop (pass : Width → List Word → Block → Block) (s : State) :
    InputSideKept s (engineUop pass s) := by
  cases hrow : s.variantRow with
  | none =>
    rw [engineUop_of_none hrow]
    exact inputSideKept_fail _ s
  | some row =>
    rw [engineUop_of_row hrow]
    exact inputSideKept_of_inner s _ _ _

theorem inputSideKept_driverUop (out : VariantRow → List Word → List Byte → List Byte)
    (work : VariantRow → List Word → List Byte → Work → Work) (s : State) : InputSideKept s (driverUop out work s) := by
  cases hrow : s.variantRow with
  | none =>
    rw [driverUop_of_none hrow]
    exact inputSideKept_fail _ s
  | some row =>
    by_cases ha : s.ports.bytesIn.length % row.blockBytes = 0
    · rw [driverUop_of_aligned hrow ha]
      exact inputSideKept_of_inner s _ _ _
    · rw [driverUop_of_unaligned hrow ha]
      exact inputSideKept_of_inner s _ _ _

theorem inputSideKept_finishData (result : Except ErrCode (List Byte)) (s : State) :
    InputSideKept s (finishData result s) := by
  cases result with
  | error code => exact inputSideKept_fail code s
  | ok out =>
    obtain ⟨-, hhost, -, hbytes⟩ := dataCommandFrame_of_ok out s
    exact ⟨hhost, fun a ha => hbytes a (.inl ha)⟩

theorem inputSideKept_execConstruct {var : Nat} {s t : State} (ht : execConstruct var s = .next t) :
    InputSideKept s t := by
  rcases execConstruct_cases var s with ⟨code, -, e⟩ | ⟨row, -, -, e⟩ <;> cases ht.symm.trans e
  · exact inputSideKept_fail code s
  · exact inputSideKept_of_bytesKept ⟨rfl, rfl, rfl, rfl, rfl, rfl, rfl⟩ (bytesKept_of_mem rfl rfl)

theorem inputSideKept_execKsExpand {s t : State} (ht : execKsExpand s = .next t) : InputSideKept s t := by
  cases hrow : vtLookup s.ports.tag.toNat with
  | none =>
    cases ht.symm.trans (execKsExpand_of_none hrow)
    exact inputSideKept_fail _ s
  | some row =>
    cases ht.symm.trans (execKsExpand_of_row hrow)
    exact inputSideKept_of_roundKeys s _ _ _

theorem inputSideKept_execVtLookup {s t : State} (ht : execVtLookup s = .next t) : InputSideKept s t := by
  unfold execVtLookup at ht
  split at ht <;> cases ht
  · exact inputSideKept_of_inner s _ _ _
  · exact inputSideKept_fail _ s

theorem inputSideKept_execPad {s t : State} (ht : execPad s = .next t) : InputSideKept s t := by
  unfold execPad at ht
  split at ht <;> cases ht
  · exact inputSideKept_of_inner s _ _ _
  · exact inputSideKept_fail _ s

theorem inputSideKept_execUnpad {s t : State} (ht : execUnpad s = .next t) : InputSideKept s t := by
  unfold execUnpad at ht
  split at ht
  · split at ht <;> cases ht
    · exact inputSideKept_of_inner s _ _ _
    · exact inputSideKept_fail _ s
  · cases ht
    exact inputSideKept_fail _ s

/-- What all seventeen instructions have in common. -/
theorem inputSideKept_exec {i : Instr} {s t : State} (ht : exec i s = .next t) : InputSideKept s t := by
  cases i with
  | construct var => exact inputSideKept_execConstruct ht
  | encrypt _ _ | decrypt _ _ => cases ht; exact inputSideKept_finishData _ s
  | vtLookup => exact inputSideKept_execVtLookup ht
  | ksExpand => exact inputSideKept_execKsExpand ht
  | beEnc | beDec => cases ht; exact inputSideKept_engineUop _ s
  | ecbEnc | ecbDec | cbcEnc | cbcDec => cases ht; exact inputSideKept_driverUop _ _ s
  | pad => exact inputSideKept_execPad ht
  | unpad => exact inputSideKept_execUnpad ht
  | rfEnc _ | rfDec _ | blkDecode | blkEncode => cases ht; exact inputSideKept_of_inner s _ _ _

/-- Settles O45: a legal capacity keeps IBUF below OBUF. -/
theorem instructionsLeaveInputAlone : Obligations.InstructionsLeaveInputAlone := by
  rintro i s t ⟨-, -, hmax⟩ ht
  obtain ⟨hhost, hbytes⟩ := inputSideKept_exec ht
  refine ⟨hhost, fun j hj => hbytes _ ?_⟩
  simp only [ibufBase, obufBase]
  omega

theorem bufcap_exec {i : Instr} {s t : State} (ht : exec i s = .next t) : t.bufcap = s.bufcap := by
  obtain ⟨⟨-, -, hcap, -⟩, -⟩ := inputSideKept_exec ht
  exact hcap

theorem bufcap_hostWrite (off : Nat) (v : BusWord) (s : State) : (hostWrite off v s).bufcap = s.bufcap := by
  rcases hostWrite_cases off v s with ⟨-, e⟩ | ⟨-, -, e⟩ | ⟨-, -, e⟩ <;> rw [e]

/-- Settles O56, by what the step did: a selected operation, or one of the cases of `step_cases`. -/
theorem bufcapNeverChanges : Obligations.BufcapNeverChanges := by
  intro s t ht
  cases hu : s.uop with
  | some u =>
    obtain ⟨i, hi⟩ := exec_of_step_selected hu ht
    exact (bufcap_exec hi :)
  | none =>
    rcases step_cases hu ht with ⟨-, rfl⟩ | ⟨rest, -, rfl⟩ | ⟨off, rest, -, -, rfl⟩ |
      ⟨off, v, rest, -, -, -, rfl⟩ | ⟨v, rest, -, -, -, rfl⟩ | ⟨v, rest, i, -, -, hexec⟩
    · rfl
    · rfl
    · rfl
    · exact bufcap_hostWrite off v _
    · rfl
    · exact (bufcap_exec hexec :)

end Sys2Proof.Machine

/-!
PROOFS, the cipher object (10_state.md R23): no step with idle select lines but `rst` and a CONSTRUCT that succeeds
changes it.
-/

namespace Sys2Proof.Machine

theorem keyKept_hostWrite (off : Nat) (v : BusWord) (s : State) : KeyKept s (hostWrite off v s) := by
  rcases hostWrite_cases off v s with ⟨-, e⟩ | ⟨-, -, e⟩ | ⟨-, -, e⟩ <;> rw [e] <;> exact ⟨rfl, rfl, rfl⟩

theorem keyKept_finishData (result : Except ErrCode (List Byte)) (s : State) : KeyKept s (finishData result s) := by
  cases result with
  | error code => exact keyKept_fail code s
  | ok out => exact (dataCommandFrame_of_ok out s).1

/-- CONSTRUCT keeps the cipher object, or it succeeds and there is one. -/
theorem keyKept_or_ok_of_execConstruct {var : Nat} {s t : State} (ht : execConstruct var s = .next t) :
    KeyKept s t ∨ (t.err = .ok ∧ t.keyValid = true) := by
  rcases execConstruct_cases var s with ⟨code, -, e⟩ | ⟨row, -, -, e⟩ <;> cases ht.symm.trans e
  · exact .inl (keyKept_fail code s)
  · exact .inr ⟨rfl, rfl⟩

/-- Settles O55: of the cases of `step_cases`, all but `rst` and CONSTRUCT keep the cipher object. -/
theorem onlyConstructOrResetChangesTheKey : Obligations.OnlyConstructOrResetChangesTheKey := by
  intro s t hu ht hchanged
  rcases step_cases hu ht with ⟨-, rfl⟩ | ⟨rest, hh, -⟩ | ⟨off, rest, -, -, rfl⟩ |
    ⟨off, v, rest, -, -, -, rfl⟩ | ⟨v, rest, -, -, -, rfl⟩ | ⟨v, rest, i, hh, hi, hexec⟩
  · exact absurd ⟨rfl, rfl, rfl⟩ hchanged
  · exact .inl ⟨rest, hh⟩
  · exact absurd ⟨rfl, rfl, rfl⟩ hchanged
  · exact absurd (keyKept_hostWrite off v { s with host := rest }) hchanged
  · exact absurd (keyKept_fail _ { s with host := rest, cmd := v }) hchanged
  · rcases decodeCmd_is_command hi with ⟨var, rfl⟩ | ⟨mode, pad, rfl⟩ | ⟨mode, pad, rfl⟩
    · rcases keyKept_or_ok_of_execConstruct hexec with hkept | ⟨hok, hvalid⟩
      · exact absurd hkept hchanged
      · exact .inr ⟨hok, hvalid, v, rest, var, hh, hi⟩
    · cases hexec
      exact absurd (keyKept_finishData _ { s with host := rest, cmd := v }) hchanged
    · cases hexec
      exact absurd (keyKept_finishData _ { s with host := rest, cmd := v }) hchanged

end Sys2Proof.Machine

/-!
PROOFS, the working registers and the ports (10_state.md R24): no command reads them.
-/

namespace Sys2Proof.Machine

/-- The end of a data command overwrites the working registers or leaves them, and does not read them. -/
theorem finishData_withInner (result : Except ErrCode (List Byte)) (s : State) (wk : Work) (po : Ports) :
    ∃ wk', finishData result { s with work := wk, ports := po } =
      { finishData result s with work := wk', ports := po } := by
  cases result with
  | error code => exact ⟨wk, rfl⟩
  | ok out => exact ⟨Work.free s.draws, rfl⟩

/-- CONSTRUCT reads the operand and ILEN only. -/
theorem execConstruct_withInner (var : Nat) (s : State) (wk : Work) (po : Ports) :
    ∃ t wk', execConstruct var s = .next t ∧
      execConstruct var { s with work := wk, ports := po } = .next { t with work := wk', ports := po } := by
  have hchecks : constructChecks var { s with work := wk, ports := po } = constructChecks var s :=
    constructChecks_congr rfl var
  simp only [execConstruct, hchecks]
  cases constructChecks var s with
  | error code => exact ⟨_, wk, rfl, rfl⟩
  | ok row => exact ⟨_, Work.free s.draws, rfl, rfl⟩

/-- Settles O46: what a data command writes is computed from other fields, and its end does not read these. -/
theorem workingRegistersAreIrrelevant : Obligations.WorkingRegistersAreIrrelevant := by
  rintro i s wk po (⟨var, rfl⟩ | ⟨mode, pad, rfl | rfl⟩)
  · obtain ⟨t, wk', ht, ht'⟩ := execConstruct_withInner var s wk po
    exact ⟨t, _, ht, ht', rfl⟩
  · obtain ⟨wk', h⟩ := finishData_withInner (encryptOutput mode pad s) s wk po
    exact ⟨_, _, rfl, congrArg Host.Outcome.next h, rfl⟩
  · obtain ⟨wk', h⟩ := finishData_withInner (decryptOutput mode pad s) s wk po
    exact ⟨_, _, rfl, congrArg Host.Outcome.next h, rfl⟩

end Sys2Proof.Machine

/-!
PROOFS, a read after a write (20_memory.md R64): for ILEN, and for the words of IBUF in their byte lanes (R53).
-/

namespace Sys2Proof.Machine

/-- The byte lanes of R53 are the little-endian bytes of the word. -/
theorem lanes_eq_toLE (v : BusWord) : lanes v = toLE 4 v.toNat := by
  have hlane (t : Nat) : lane v t = BitVec.ofNat 8 (v.toNat / 256 ^ t) := by
    rw [lane, BitVec.extractLsb', Nat.shiftRight_eq_div_pow, Nat.pow_mul]
  simp [lanes, toLE, hlane, Nat.div_div_eq_div_mul]

/-- The lanes of a word make up the word again. -/
theorem busWordOf_lanes (v : BusWord) : busWordOf (lanes v) = v := by
  rw [busWordOf, lanes_eq_toLE, le_toLE, Nat.mod_eq_of_lt v.isLt, BitVec.ofNat_toNat, BitVec.setWidth_eq]

/-- Bytes written are the bytes read. -/
theorem bytesAt_writeBytes (s : State) (base : Nat) (vs : List Byte) :
    ({ s with mem := Memory.writeBytes s.mem base vs }).bytesAt base vs.length = vs := by
  apply List.ext_getElem
  · simp
  · intro i _ hi
    simp [State.bytesAt, State.byteAt, Memory.lookup_writeBytes, hi]

theorem busRead_of_inIbuf {s : State} {off : Nat} (h : s.inIbuf off = true) :
    s.busRead off = busWordOf (s.bytesAt off 4) := by
  have hlo : 0x10000 ≤ off := ((inIbuf_iff s off).mp h).1
  simp only [State.busRead, h, Bool.true_or, if_true]
  repeat rw [if_neg (by omega)]

/-- A write to ILEN or to a word of IBUF is what a read of the same offset then returns. -/
theorem busRead_hostWrite {s : State} {off : Nat} (v : BusWord) (h : off = 8 ∨ s.inIbuf off = true) :
    (hostWrite off v s).busRead off = v := by
  rcases hostWrite_cases off v s with ⟨rfl, e⟩ | ⟨-, hin, e⟩ | ⟨hne, hout, -⟩
  · rw [e]
    rfl
  · rw [e, busRead_of_inIbuf (by exact hin)]
    exact (congrArg busWordOf (bytesAt_writeBytes s off (lanes v))).trans (busWordOf_lanes v)
  · simp [hne, hout] at h

theorem hostWrite_hostSide (off : Nat) (v : BusWord) (s : State) :
    (hostWrite off v s).uop = s.uop ∧ (hostWrite off v s).host = s.host ∧
      (hostWrite off v s).hostReads = s.hostReads := by
  rcases hostWrite_cases off v s with ⟨-, e⟩ | ⟨-, -, e⟩ | ⟨-, -, e⟩ <;> rw [e] <;> exact ⟨rfl, rfl, rfl⟩

/-- Two steps: a write of a word other than CMD, then a read of the same offset. -/
theorem step_write_then_read {s : State} {off : Nat} {v : BusWord} {rest : List HostInput} (hu : s.uop = none)
    (hh : s.host = .write 32 off v :: .read 32 off :: rest) (ho : off % 4 = 0)
    (hwritable : off = 8 ∨ s.inIbuf off = true) :
    ∃ t u, step s = .next t ∧ step t = .next u ∧ u.hostReads = v :: s.hostReads := by
  have h0 : off ≠ 0 := by
    rintro rfl
    rcases hwritable with h | h
    · cases h
    · exact absurd ((inIbuf_iff s 0).mp h).1 (by decide)
  obtain ⟨huop, hhost, hreads⟩ := hostWrite_hostSide off v { s with host := .read 32 off :: rest }
  refine ⟨_, _, step_of_write hu hh ho h0, step_of_read (huop.trans hu) hhost ho, ?_⟩
  exact congrArg₂ List.cons (busRead_hostWrite v hwritable) hreads

/-- Settles O50: a write to ILEN is the first case of `hostWrite_cases`, and a read returns what was written. -/
theorem readReturnsLatestWrite : Obligations.ReadReturnsLatestWrite := by
  refine ⟨fun s v rest hu hh => step_of_write hu hh rfl (by decide), fun s off v rest hu hh hoff => ?_⟩
  rcases hoff with rfl | ⟨ho, hlo, hhi⟩
  · exact step_write_then_read hu hh rfl (.inl rfl)
  · exact step_write_then_read hu hh ho (.inr ((inIbuf_iff s off).mpr ⟨hlo, hhi⟩))

end Sys2Proof.Machine

/-!
PROOFS, the status word (10_state.md R29, 60_exceptions.md R250), bit by bit.
-/

namespace Sys2Proof.Machine

/-- The numbers of R250 are 0 to 8. -/
theorem errCode_code_le (e : ErrCode) : e.code.toNat ≤ 8 := by
  cases e <;> decide

/-- Every bit of STATUS is a bit of ERR, of KEY_VALID or of VARIANT, each shifted to its place. -/
theorem getLsbD_statusWord (s : State) (i : Nat) :
    s.statusWord.getLsbD i =
      (s.err.code.getLsbD i || (decide (i = 8) && s.keyValid) ||
        (decide (12 ≤ i) && s.statusVariant.getLsbD (i - 12))) := by
  have herr : 4 ≤ i → s.err.code.getLsbD i = false := BitVec.getLsbD_of_ge _ _
  have hvariant : 3 ≤ i - 12 → s.statusVariant.getLsbD (i - 12) = false := BitVec.getLsbD_of_ge _ _
  simp only [State.statusWord, BitVec.getLsbD_or, BitVec.getLsbD_setWidth, BitVec.getLsbD_shiftLeft,
    BitVec.getLsbD_ofBool]
  grind

theorem getLsbD_statusWord_err (s : State) {i : Nat} (h : i < 8) : s.statusWord.getLsbD i = s.err.code.getLsbD i := by
  simp [getLsbD_statusWord, show i ≠ 8 by omega, show ¬12 ≤ i by omega]

theorem getLsbD_statusWord_keyValid (s : State) {i : Nat} (h8 : 8 ≤ i) (h12 : i < 12) :
    s.statusWord.getLsbD i = (decide (i = 8) && s.keyValid) := by
  simp [getLsbD_statusWord, BitVec.getLsbD_of_ge s.err.code i (by omega), show ¬12 ≤ i by omega]

theorem getLsbD_statusWord_variant (s : State) {i : Nat} (h : 12 ≤ i) :
    s.statusWord.getLsbD i = s.statusVariant.getLsbD (i - 12) := by
  simp [getLsbD_statusWord, BitVec.getLsbD_of_ge s.err.code i (by omega), show i ≠ 8 by omega, h]

theorem statusWord_variantField (s : State) : s.statusWord.extractLsb' 12 3 = s.statusVariant := by
  ext i hi
  simp [getLsbD_statusWord_variant s (Nat.le_add_right 12 i), hi]

/-- Settles O51: each field, and each run of reserved bits, is read off the bits of its range. -/
theorem statusFieldsStandInTheirBits : Obligations.StatusFieldsStandInTheirBits := by
  refine ⟨by decide, fun s => ⟨?_, errCode_code_le s.err, ?_, ?_, ?_, fun hvalid => ?_, fun hvalid => ?_, ?_⟩⟩
  · ext i hi
    simp [getLsbD_statusWord_err s (show i < 8 by omega), BitVec.getLsbD_eq_getElem hi]
  · ext i hi
    simp [getLsbD_statusWord_err s (show 4 + i < 8 by omega), BitVec.getLsbD_of_ge]
  · exact getLsbD_statusWord_keyValid s (by decide) (by decide)
  · ext i hi
    simp [getLsbD_statusWord_keyValid s (show 8 ≤ 9 + i by omega) (show 9 + i < 12 by omega),
      show 9 + i ≠ 8 by omega]
  · rw [statusWord_variantField, State.statusVariant, if_pos hvalid]
  · rw [statusWord_variantField, State.statusVariant, hvalid, if_neg Bool.false_ne_true]
  · ext i hi
    simp [getLsbD_statusWord_variant s (show 12 ≤ 15 + i by omega),
      BitVec.getLsbD_of_ge s.statusVariant (15 + i - 12) (by omega)]

end Sys2Proof.Machine

/-!
PROOFS, the state after reset (10_state.md R37).
-/

namespace Sys2Proof.Machine

/-- STATUS reads as 0 while the outcome is OK and no cipher object exists. -/
theorem statusWord_eq_zero {s : State} (herr : s.err = .ok) (hvalid : s.keyValid = false) : s.statusWord = 0#32 := by
  simp [State.statusWord, State.statusVariant, herr, hvalid, ErrCode.code]

/-- Settles O53: field by field, from the definition of `State.powerOn`. -/
theorem resetStateIsAsListed : Obligations.ResetStateIsAsListed :=
  ⟨fun _ _ _ => ⟨rfl, statusWord_eq_zero rfl rfl, rfl, rfl, rfl, rfl, rfl, fun _ => rfl⟩, rfl⟩

/-- A core of legal capacity meets the invariant after reset. -/
theorem inv_powerOn {cap : BusWord} (hcap : Config.CapLegal cap.toNat) (epoch draws : Nat) :
    Inv (State.powerOn cap epoch draws) where
  capLegal := hcap
  uopIdle := rfl
  memInv := ⟨List.Pairwise.nil, fun _ ha => absurd ha List.not_mem_nil⟩
  olenBound := Nat.zero_le _
  keyInv := fun hvalid => nomatch hvalid

/-- Settles O58: the reference capacity 4096 is legal. -/
theorem resetMeetsInvariant : Obligations.ResetMeetsInvariant := inv_powerOn (by decide) 0 0

end Sys2Proof.Machine

/-!
PROOFS, the parts of a byte sequence (00_scope.md R8, R10): the value of its first bytes, of the bytes after them, and
of a word read out of it.
-/

namespace Sys2Proof.Machine

/-- The first n bytes hold the value modulo 2^(8n), since every later byte has a weight that is a multiple of it. -/
theorem le_take (n : Nat) (s : List Byte) : le (s.take n) = le s % 2 ^ (8 * n) := by
  induction n generalizing s with
  | zero => simp [le, Nat.mod_one]
  | succ n ih =>
    cases s with
    | nil => simp [le]
    | cons b bs =>
      have hb : b.toNat < 256 := b.isLt
      calc le ((b :: bs).take (n + 1))
        _ = b.toNat + 256 * (le bs % 2 ^ (8 * n)) := by rw [List.take_succ_cons, le, ih]
        _ = (b.toNat + 256 * le bs) % (256 * 2 ^ (8 * n)) := by
          rw [Nat.mod_mul, Nat.add_mul_mod_self_left, Nat.mod_eq_of_lt hb, Nat.add_mul_div_left _ _ (by decide),
            Nat.div_eq_of_lt hb, Nat.zero_add]
        _ = le (b :: bs) % 2 ^ (8 * (n + 1)) := by rw [byteWeight_succ, le]

theorem le_drop (n : Nat) (s : List Byte) : le (s.drop n) = le s / 2 ^ (8 * n) := by
  induction n generalizing s with
  | zero => simp
  | succ n ih =>
    cases s with
    | nil => simp [le]
    | cons b bs =>
      have hb : b.toNat < 256 := b.isLt
      rw [List.drop_succ_cons, ih, le, byteWeight_succ, ← Nat.div_div_eq_div_mul,
        Nat.add_mul_div_left _ _ (by decide), Nat.div_eq_of_lt hb, Nat.zero_add]

/-- The value of n bytes fits 8n bits. -/
theorem le_mod_length (s : List Byte) : le s % 2 ^ (8 * s.length) = le s := by
  rw [← le_take, List.take_length]

/-- The bytes of the value of a byte sequence are the sequence. -/
theorem toLE_le {n : Nat} {s : List Byte} (hlen : s.length = n) : toLE n (le s) = s := by
  subst hlen
  exact le_inj (toLE_length ..) ((le_toLE ..).trans (le_mod_length s))

theorem slice_add (s : List Byte) (i n : Nat) : slice s i (i + n) = (s.drop i).take n := by
  rw [slice, Nat.add_sub_cancel_left]

/-- A word of either width fits the datapath word (R7). -/
theorem toNat_wordAt (w : Width) (s : List Byte) (off : Nat) :
    (wordAt w s off).toNat = le ((s.drop off).take w.bytes) := by
  have hfits : le ((s.drop off).take w.bytes) < 2 ^ 64 := by
    rw [le_take]
    exact (Nat.mod_lt _ (Nat.two_pow_pos _)).trans_le (by cases w <;> decide)
  rw [wordAt, BitVec.toNat_ofNat, Nat.mod_eq_of_lt hfits]

/-- The bytes of a word that lies within the byte sequence are the bytes it was read from. -/
theorem toLE_wordAt {w : Width} {s : List Byte} {off : Nat} (h : off + w.bytes ≤ s.length) :
    toLE w.bytes (wordAt w s off).toNat = (s.drop off).take w.bytes := by
  rw [toNat_wordAt]
  apply toLE_le
  rw [List.length_take, List.length_drop]
  omega

end Sys2Proof.Machine

/-!
PROOFS, the block codec (20_memory.md R59, R60): BLK_DECODE and BLK_ENCODE on the lines, and that they are inverse.
-/

namespace Sys2Proof.Machine

/-- An operand that is long enough is read as it stands (log 10). -/
theorem driven_of_le {n : Nat} {s : List Byte} (h : n ≤ s.length) (draw : Nat) : driven draw n s = s := by
  simp [driven, freeBytes, Nat.sub_eq_zero_of_le h]

theorem exec_blkDecode (s : State) :
    exec .blkDecode s = .next { s.driveBlock (blockAt s.ports.width
      (driven s.draws (s.ports.off + 2 * s.ports.width.bytes) s.ports.bytesIn) s.ports.off) with
      draws := s.draws + 1 } := rfl

theorem exec_blkEncode (s : State) :
    exec .blkEncode s = .next { s with ports := { s.ports with
      bytesOut := blockBytesOf s.ports.width ⟨s.ports.xIn, s.ports.yIn⟩ } } := rfl

/-- Settles O33: each half is a word of the operand, and only the ports and the draw counter change. -/
theorem blockDecodeSplitsHalves : Obligations.BlockDecodeSplitsHalves := by
  refine ⟨rfl, fun s => ⟨_, exec_blkDecode s, fun hlen => ?_, rfl, uopFrame_of_inner s s.work _ _, rfl⟩⟩
  have hupper : s.ports.off + 2 * s.ports.width.bytes = s.ports.off + s.ports.width.bytes + s.ports.width.bytes := by
    omega
  rw [driven_of_le hlen, hupper, slice_add, slice_add]
  exact ⟨toNat_wordAt .., toNat_wordAt ..⟩

theorem blockBytesOf_blockAt {w : Width} {s : List Byte} {off : Nat} (h : off + 2 * w.bytes ≤ s.length) :
    blockBytesOf w (blockAt w s off) = slice s off (off + 2 * w.bytes) := by
  calc blockBytesOf w (blockAt w s off)
    _ = (s.drop off).take w.bytes ++ (s.drop (off + w.bytes)).take w.bytes := by
      rw [blockBytesOf, blockAt, toLE_wordAt (by omega), toLE_wordAt (by omega)]
    _ = slice s off (off + 2 * w.bytes) := by
      rw [slice_add, Nat.two_mul, List.take_add, List.drop_drop]

/-- Settles O34: both halves give their bytes back. -/
theorem blockEncodeInvertsDecode : Obligations.BlockEncodeInvertsDecode :=
  ⟨rfl, exec_blkEncode, fun _ _ _ => blockBytesOf_blockAt⟩

end Sys2Proof.Machine

/-!
PROOFS, the address map (20_memory.md R51 to R56, R61): what a read of each offset returns, and the bytes of IBUF that
a write changes.
-/

namespace Sys2Proof.Machine

/-- The lanes of the bus word of four bytes are the four bytes. -/
theorem lanes_busWordOf {s : List Byte} (hlen : s.length = 4) : lanes (busWordOf s) = s := by
  have hvalue : (busWordOf s).toNat = le s := by
    rw [busWordOf, BitVec.toNat_ofNat]
    simpa [hlen] using le_mod_length s
  rw [lanes_eq_toLE, hvalue, toLE_le hlen]

/-- Byte lane t of a bus word is its byte t (R53). -/
theorem lanes_getElem? (v : BusWord) {t : Nat} (h : t < 4) : (lanes v)[t]? = some (v.extractLsb' (8 * t) 8) := by
  match t, h with
  | 0, _ | 1, _ | 2, _ | 3, _ => rfl

/-- Above the registers a read returns the four bytes in IBUF or OBUF, and 0 outside (R54 to R56). -/
theorem busRead_of_ge {s : State} {off : Nat} (h : 0x14 ≤ off) :
    s.busRead off = if s.inIbuf off || s.inObuf off then busWordOf (s.bytesAt off 4) else 0#32 := by
  unfold State.busRead
  repeat rw [if_neg (by omega)]

theorem inBuffer_iff (s : State) (off : Nat) :
    (s.inIbuf off || s.inObuf off) = true ↔
      (0x10000 ≤ off ∧ off < 0x10000 + s.ibufBytes ∨ 0x20000 ≤ off ∧ off < 0x20000 + (s.ibufBytes + 16)) := by
  rw [Bool.or_eq_true, inIbuf_iff, inObuf_iff]
  rfl

/-- In a buffer, bits [8t+7 : 8t] of the word read are byte off + t (R53). -/
theorem extractLsb'_busRead {s : State} {off : Nat} (h : (s.inIbuf off || s.inObuf off) = true) {t : Nat}
    (ht : t < 4) : (s.busRead off).extractLsb' (8 * t) 8 = s.byteAt (off + t) := by
  have hoff : 0x14 ≤ off := by
    rw [inBuffer_iff] at h
    omega
  apply Option.some.inj
  rw [← lanes_getElem? _ ht, busRead_of_ge hoff, if_pos h, lanes_busWordOf (State.bytesAt_length ..)]
  simp [State.bytesAt, ht]

/-- Settles O47: the registers by the definition of `State.busRead`, the buffers byte by byte. -/
theorem readsFollowTheAddressMap : Obligations.ReadsFollowTheAddressMap := by
  intro s off rest hu hh ho
  refine ⟨s.busRead off, step_of_read hu hh ho, ?_, ?_, ?_, ?_, ?_, fun hin t ht =>
    extractLsb'_busRead ((inBuffer_iff s off).mpr hin) ht⟩
  all_goals
    rintro rfl
    rfl

/-- A write to CMD has a step whatever the word: a command completes, and an illegal word fails. -/
theorem step_of_cmdWrite {s : State} {v : BusWord} {rest : List HostInput} (hu : s.uop = none)
    (hh : s.host = .write 32 0 v :: rest) : ∃ t, step s = .next t := by
  cases hd : decode (.cmd32 v) with
  | ok i => exact step_of_command hu hh hd ▸ exec_answers_next i _
  | error e => exact ⟨_, step_of_illegalWord hu hh hd⟩

/-- Settles O9: reads and writes, each outside and inside the contract of R52. -/
theorem onlyAccessesOutsideContractAreRefused : Obligations.OnlyAccessesOutsideContractAreRefused := by
  rintro s width off v rest hu (hh | hh)
  · refine ⟨fun hout => step_of_readOutsideContract hu hh (by omega), ?_⟩
    rintro rfl ho
    exact ⟨_, step_of_read hu hh ho⟩
  · refine ⟨fun hout => step_of_writeOutsideContract hu hh (by omega), ?_⟩
    rintro rfl ho
    by_cases h0 : off = 0
    · exact step_of_cmdWrite hu (h0 ▸ hh)
    · exact ⟨_, step_of_write hu hh ho h0⟩

/-- Settles O48: neither buffer holds the offset, and a write is none of the first two of `hostWrite_cases`. -/
theorem reservedOffsetsAreRazWi : Obligations.ReservedOffsetsAreRazWi := by
  refine fun s off rest hu ho => ⟨fun hh hreg hibuf hobuf => ?_, fun v hh h0 h8 hibuf => ?_⟩
  · have hzero : s.busRead off = 0#32 := by
      rw [busRead_of_ge hreg, if_neg ((inBuffer_iff s off).not.mpr (not_or.mpr ⟨hibuf, hobuf⟩))]
    rw [step_of_read hu hh ho, ← hzero]
    rfl
  · rw [step_of_write hu hh ho h0]
    rcases hostWrite_cases off v { s with host := rest } with ⟨h, -⟩ | ⟨-, hin, -⟩ | ⟨-, -, e⟩
    · exact absurd h h8
    · exact absurd ((inIbuf_iff s off).mp hin) hibuf
    · rw [e]

/-- A word written to the buffers is its four lanes at the four bytes from `off`, and no other byte changes. -/
theorem byteAt_writeLanes (s : State) (off : Nat) (v : BusWord) :
    (∀ t, t < 4 →
      ({ s with mem := Memory.writeBytes s.mem off (lanes v) }).byteAt (off + t) = v.extractLsb' (8 * t) 8) ∧
    ∀ a, a < off ∨ off + 4 ≤ a → ({ s with mem := Memory.writeBytes s.mem off (lanes v) }).byteAt a = s.byteAt a := by
  have hlen : (lanes v).length = 4 := rfl
  refine ⟨fun t ht => ?_, fun a ha => ?_⟩ <;> simp only [State.byteAt, Memory.lookup_writeBytes, hlen]
  · rw [if_pos (by omega), Nat.add_sub_cancel_left, lanes_getElem? v ht, Option.getD_some]
  · rw [if_neg (by omega)]

/-- Settles O49: the write is the second of `hostWrite_cases`, and a read returns the word of the four bytes. -/
theorem ibufAccessUsesLittleEndianLanes : Obligations.IbufAccessUsesLittleEndianLanes := by
  intro s off rest hu ho hlo hhi
  have hin : s.inIbuf off = true := (inIbuf_iff s off).mpr ⟨hlo, hhi⟩
  refine ⟨fun v hh => ?_, fun hh => ?_⟩
  · rcases hostWrite_cases off v { s with host := rest } with ⟨h8, -⟩ | ⟨-, -, e⟩ | ⟨-, hout, -⟩
    · omega
    · exact ⟨_, (step_of_write hu hh ho (by omega)).trans (congrArg _ e), rfl,
        byteAt_writeLanes { s with host := rest } off v⟩
    · exact absurd (hin.symm.trans hout) (by decide)
  · rw [step_of_read hu hh ho, hostRead, busRead_of_inIbuf (by exact hin)]
    rfl

/-- Bus word j of a datapath word read at `off` is the bus word of the four bytes at off + 4j. -/
theorem extractLsb'_wordAt {w : Width} {j : Nat} (hw : 4 * j + 4 ≤ w.bytes) (s : List Byte) (off : Nat) :
    (wordAt w s off).extractLsb' (32 * j) 32 = busWordOf ((s.drop (off + 4 * j)).take 4) := by
  obtain ⟨rest, hrest⟩ := Nat.exists_eq_add_of_le hw
  have hsplit : 2 ^ (8 * w.bytes) = 2 ^ (32 * j) * (2 ^ 32 * 2 ^ (8 * rest)) := by
    rw [hrest, ← Nat.pow_add, ← Nat.pow_add]
    congr 1
    omega
  apply BitVec.eq_of_toNat_eq
  calc ((wordAt w s off).extractLsb' (32 * j) 32).toNat
    _ = le (s.drop off) % 2 ^ (8 * w.bytes) / 2 ^ (32 * j) % 2 ^ 32 := by
      rw [BitVec.extractLsb'_toNat, toNat_wordAt, le_take, Nat.shiftRight_eq_div_pow]
    _ = le (s.drop off) / 2 ^ (32 * j) % 2 ^ 32 := by
      rw [hsplit, Nat.mod_mul_right_div_self, Nat.mod_mul_right_mod]
    _ = (busWordOf ((s.drop (off + 4 * j)).take 4)).toNat := by
      rw [busWordOf, BitVec.toNat_ofNat, le_take, Nat.mod_mod, ← List.drop_drop, le_drop (4 * j), ← Nat.mul_assoc]

theorem take_drop_bytesAt (s : State) (base : Nat) {i m n : Nat} (h : i + m ≤ n) :
    ((s.bytesAt base n).drop i).take m = s.bytesAt (base + i) m := by
  apply List.ext_getElem
  · simp only [List.length_take, List.length_drop, State.bytesAt_length]
    omega
  · intro j _ _
    simp [State.bytesAt, Nat.add_assoc]

/-- A word of IBUF read over the bus is the bus word of the four bytes that a command reads there. -/
theorem busRead_ibuf {s : State} {i : Nat} (h : i + 4 ≤ s.ibufBytes) :
    s.busRead (0x10000 + i) = busWordOf (((s.memRead 0 s.ibufBytes).drop i).take 4) := by
  have hin : s.inIbuf (0x10000 + i) = true := (inIbuf_iff s _).mpr (by simp only [ibufBase]; omega)
  rw [busRead_of_inIbuf hin, State.memRead, take_drop_bytesAt s _ h]
  rfl

/-- Bus word j of a word in IBUF, over the bus. -/
theorem busRead_wordAt {w : Width} {s : State} {i j : Nat} (hw : 4 * j + 4 ≤ w.bytes)
    (hi : i + 4 * j + 4 ≤ s.ibufBytes) :
    s.busRead (0x10000 + (i + 4 * j)) = (wordAt w (s.memRead 0 s.ibufBytes) i).extractLsb' (32 * j) 32 := by
  rw [busRead_ibuf hi, extractLsb'_wordAt hw]

/-- Settles O35: each bus word is word j of y, which stands at the block's start, or of x, which follows it. -/
theorem busViewOfBlocks : Obligations.BusViewOfBlocks := by
  refine fun s k _ => ⟨fun hk => ⟨?_, ?_, ?_, ?_⟩, fun hk => ⟨?_, ?_⟩⟩
  · exact busRead_wordAt (w := .w64) (j := 0) (i := 16 * k) (by decide) (by omega)
  · exact busRead_wordAt (w := .w64) (j := 1) (by decide) (by omega)
  · exact busRead_wordAt (w := .w64) (j := 0) (i := 16 * k + 8) (by decide) (by omega)
  · exact busRead_wordAt (w := .w64) (j := 1) (i := 16 * k + 8) (by decide) (by omega)
  · exact busRead_wordAt (w := .w32) (j := 0) (i := 8 * k) (by decide) (by omega)
  · exact busRead_wordAt (w := .w32) (j := 0) (i := 8 * k + 4) (by decide) (by omega)

end Sys2Proof.Machine

/-!
PROOFS, a data command run again (20_memory.md R64): it finds the input that the first run found, so it writes the
same bytes once more.
-/

namespace Sys2Proof.Machine

/-- All that a data command computes its result from is the same: the cipher object, ILEN, the capacity and the
operand. -/
structure SameInput (s s' : State) : Prop where
  key : KeyKept s s'
  ilen : s'.ilen = s.ilen
  bufcap : s'.bufcap = s.bufcap
  operand : s'.operand = s.operand

section
variable {s s' : State} (h : SameInput s s')
include h

theorem dataChecks_of_sameInput : dataChecks s' = dataChecks s := by
  obtain ⟨⟨hvalid, hvariant, -⟩, hilen, hcap, -⟩ := h
  have hrow : s'.variantRow = s.variantRow := by rw [State.variantRow, State.variantRow, hvariant]
  have hibuf : s'.ibufBytes = s.ibufBytes := congrArg BitVec.toNat hcap
  simp only [dataChecks, hvalid, hilen, hrow, hibuf]

theorem roundKeys_of_sameInput (rounds : Nat) : s'.roundKeys rounds = s.roundKeys rounds := by
  obtain ⟨⟨-, -, hrk⟩, -⟩ := h
  rw [State.roundKeys, State.roundKeys, hrk]

theorem encryptOutput_of_sameInput (mode : Nat) (pad : Padding) :
    encryptOutput mode pad s' = encryptOutput mode pad s := by
  simp only [encryptOutput, dataChecks_of_sameInput h, roundKeys_of_sameInput h, h.ilen, h.operand]

theorem decryptOutput_of_sameInput (mode : Nat) (pad : Padding) :
    decryptOutput mode pad s' = decryptOutput mode pad s := by
  simp only [decryptOutput, dataChecks_of_sameInput h, roundKeys_of_sameInput h, h.ilen, h.operand]

end

/-- A data command with a result has passed the length check. -/
theorem operand_length_le_of_encryptOutput {mode : Nat} {pad : Padding} {s : State} {out : List Byte}
    (h : encryptOutput mode pad s = .ok out) : s.operand.length ≤ s.ibufBytes := by
  cases hchecks : dataChecks s with
  | error code => simp [encryptOutput, hchecks] at h
  | ok row => exact (dataChecks_ok hchecks).2

theorem operand_length_le_of_decryptOutput {mode : Nat} {pad : Padding} {s : State} {out : List Byte}
    (h : decryptOutput mode pad s = .ok out) : s.operand.length ≤ s.ibufBytes := by
  cases hchecks : dataChecks s with
  | error code => simp [decryptOutput, hchecks] at h
  | ok row => exact (dataChecks_ok hchecks).2

/-- The end of a data command leaves its own input alone: a failed one writes no byte, and one with a result, whose
operand lies in IBUF, writes to OBUF only. -/
theorem sameInput_finishData {s : State} (hcap : Config.CapLegal s.ibufBytes) {result : Except ErrCode (List Byte)}
    (hoperand : ∀ out, result = .ok out → s.operand.length ≤ s.ibufBytes) : SameInput s (finishData result s) := by
  cases result with
  | error code => exact ⟨keyKept_fail code s, rfl, rfl, rfl⟩
  | ok out =>
    obtain ⟨-, -, hmax⟩ := hcap
    have hlen : s.ilen.toNat ≤ s.ibufBytes := s.operand_length ▸ hoperand out rfl
    obtain ⟨-, hbytes⟩ := inputSideKept_finishData (.ok out) s
    refine ⟨keyKept_finishData _ s, rfl, rfl, List.map_congr_left fun i hi => hbytes _ ?_⟩
    have hi : i < s.ilen.toNat := List.mem_range.mp hi
    simp only [ibufBase, obufBase]
    omega

/-- What a second run shows the host: the same outcome, with no buffer byte and no part of the cipher object changed. -/
def RerunOf (t u : State) : Prop := u.err = t.err ∧ u.olen = t.olen ∧ BytesKept t u ∧ KeyKept t u

/-- Writing the same result a second time changes no byte of OBUF. -/
theorem bytesKept_finishData_again (out : List Byte) (s : State) :
    BytesKept (finishData (.ok out) s) (finishData (.ok out) (finishData (.ok out) s)) := by
  intro a
  by_cases hin : obufBase ≤ a ∧ a < obufBase + out.length
  · obtain ⟨i, rfl⟩ := Nat.exists_eq_add_of_le hin.1
    have hi : i < out.length := by omega
    exact (resultBytes_of_ok out _ i hi).trans (resultBytes_of_ok out s i hi).symm
  · obtain ⟨-, -, -, hframe⟩ := dataCommandFrame_of_ok out (finishData (.ok out) s)
    exact hframe a (by omega)

theorem rerunOf_finishData (result : Except ErrCode (List Byte)) (s : State) :
    RerunOf (finishData result s) (finishData result (finishData result s)) := by
  cases result with
  | error code => exact ⟨rfl, rfl, bytesKept_fail code _, keyKept_fail code _⟩
  | ok out => exact ⟨rfl, rfl, bytesKept_finishData_again out s, keyKept_finishData _ _⟩

/-- Settles O42: the second run has the same input, so it ends with the same result. -/
theorem repeatedDataCommandGivesSameResult : Obligations.RepeatedDataCommandGivesSameResult := by
  rintro i mode pad s t (rfl | rfl) hcap ht <;> cases ht <;> refine ⟨_, rfl, ?_⟩
  · rw [encryptOutput_of_sameInput (sameInput_finishData hcap fun _ => operand_length_le_of_encryptOutput)]
    exact rerunOf_finishData _ s
  · rw [decryptOutput_of_sameInput (sameInput_finishData hcap fun _ => operand_length_le_of_decryptOutput)]
    exact rerunOf_finishData _ s

end Sys2Proof.Machine

/-!
PROOFS, the command word (30_encoding.md R80, R90): as a number it is the sum of its fields, each at its place, so it
is the word that has these fields and no reserved bit.
-/

namespace Sys2Proof

theorem Padding.ofBit_eq_iff (b : BitVec 1) (pad : Padding) : Padding.ofBit b = pad ↔ b = pad.bit := by
  rcases BitVec.eq_zero_or_eq_one b with rfl | rfl <;> cases pad <;> decide

/-- The reserved bits of R80 as digits of the word's number. -/
theorem cmdReservedZero_iff (c : BitVec 32) :
    cmdReservedZero c = true ↔
      c.toNat / 2 ^ 7 % 2 = 0 ∧ c.toNat / 2 ^ 10 % 2 ^ 2 = 0 ∧ c.toNat / 2 ^ 13 % 2 ^ 19 = 0 := by
  simp [cmdReservedZero, ← BitVec.toNat_inj, BitVec.extractLsb'_toNat, Nat.shiftRight_eq_div_pow, and_assoc]

/-- `|` of a number that fits below bit n with a number shifted to bit n, as long as no bit is shifted out. -/
theorem toNat_or_shiftLeft {x y : BitVec 32} {a b n : Nat} (hx : x.toNat = a) (hy : y.toNat = b) (ha : a < 2 ^ n)
    (hb : 2 ^ n * b < 2 ^ 32) : (x ||| y <<< n).toNat = 2 ^ n * b + a := by
  rw [BitVec.toNat_or, BitVec.toNat_shiftLeft, hx, hy, Nat.shiftLeft_eq, Nat.mul_comm b, Nat.mod_eq_of_lt hb,
    Nat.or_comm, Nat.two_pow_add_eq_or_of_lt ha]

section
variable {opc var mode : Nat} (ho : opc < 16) (hv : var < 8) (hm : mode < 4)
include ho hv hm

/-- The fields do not overlap, so the `|` of R90 is a sum. -/
theorem toNat_cmdWord (pad : Padding) :
    (cmdWord opc var mode pad).toNat = 2 ^ 12 * pad.bit.toNat + (2 ^ 8 * mode + (2 ^ 4 * var + opc)) := by
  have hp := pad.bit.isLt
  have hofNat {v : Nat} (h : v < 16) : (BitVec.ofNat 32 v).toNat = v := Nat.mod_eq_of_lt (by omega)
  have hpad : (pad.bit.setWidth 32).toNat = pad.bit.toNat := BitVec.toNat_setWidth_of_le (by decide)
  have hvar := toNat_or_shiftLeft (n := 4) (hofNat ho) (hofNat (v := var) (by omega)) (by omega) (by omega)
  have hmode := toNat_or_shiftLeft (n := 8) hvar (hofNat (v := mode) (by omega)) (by omega) (by omega)
  exact toNat_or_shiftLeft hmode hpad (by omega) (by omega)

theorem cmdWord_eq_iff (pad : Padding) (c : BitVec 32) :
    cmdWord opc var mode pad = c ↔
      cmdReservedZero c = true ∧ (cmdOpc c).toNat = opc ∧ (cmdVar c).toNat = var ∧ (cmdMode c).toNat = mode ∧
        Padding.ofBit (cmdPad c) = pad := by
  have hp := pad.bit.isLt
  have hc := c.isLt
  rw [cmdReservedZero_iff, Padding.ofBit_eq_iff]
  simp only [← BitVec.toNat_inj, toNat_cmdWord ho hv hm, cmdOpc, cmdVar, cmdMode, cmdPad, BitVec.extractLsb'_toNat,
    Nat.shiftRight_eq_div_pow]
  omega

end

end Sys2Proof

/-!
PROOFS, the decoder and the encoder (30_encoding.md R80 to R89).
-/

namespace Sys2Proof

/-- R86: the words that decode, each with what it decodes to. -/
theorem decode_cmd32_eq_ok_iff (c : BitVec 32) (i : Instr) :
    decode (.cmd32 c) = .ok i ↔ cmdReservedZero c = true ∧
      ((cmdOpc c = 1#4 ∧ (cmdMode c = 0#2 ∧ cmdPad c = 0#1) ∧ .construct (cmdVar c).toNat = i) ∨
        (cmdOpc c = 2#4 ∧ cmdVar c = 0#3 ∧ .encrypt (cmdMode c).toNat (Padding.ofBit (cmdPad c)) = i) ∨
        (cmdOpc c = 3#4 ∧ cmdVar c = 0#3 ∧ .decrypt (cmdMode c).toNat (Padding.ofBit (cmdPad c)) = i)) := by
  cases hres : cmdReservedZero c
  · simp [decode, decodeCmd, hres]
  · simp only [decode, decodeCmd, hres, Bool.not_true, if_neg Bool.false_ne_true]
    split_ifs <;> simp [*]

theorem decode_encode_construct {var : Nat} (h : var < 8) :
    decode (encode (.construct var)) = .ok (.construct var) := by
  obtain ⟨hres, hopc, hvar, hmode, hpad⟩ :=
    (cmdWord_eq_iff (opc := 1) (mode := 0) (by decide) h (by decide) .none _).mp rfl
  exact (decode_cmd32_eq_ok_iff _ _).mpr ⟨hres, .inl ⟨BitVec.eq_of_toNat_eq hopc,
    ⟨BitVec.eq_of_toNat_eq hmode, (Padding.ofBit_eq_iff _ _).mp hpad⟩, congrArg Instr.construct hvar⟩⟩

theorem decode_encode_encrypt {mode : Nat} (h : mode < 4) (pad : Padding) :
    decode (encode (.encrypt mode pad)) = .ok (.encrypt mode pad) := by
  obtain ⟨hres, hopc, hvar, hmode, hpad⟩ :=
    (cmdWord_eq_iff (opc := 2) (var := 0) (by decide) (by decide) h pad _).mp rfl
  exact (decode_cmd32_eq_ok_iff _ _).mpr ⟨hres, .inr (.inl ⟨BitVec.eq_of_toNat_eq hopc, BitVec.eq_of_toNat_eq hvar,
    congrArg₂ Instr.encrypt hmode hpad⟩)⟩

theorem decode_encode_decrypt {mode : Nat} (h : mode < 4) (pad : Padding) :
    decode (encode (.decrypt mode pad)) = .ok (.decrypt mode pad) := by
  obtain ⟨hres, hopc, hvar, hmode, hpad⟩ :=
    (cmdWord_eq_iff (opc := 3) (var := 0) (by decide) (by decide) h pad _).mp rfl
  exact (decode_cmd32_eq_ok_iff _ _).mpr ⟨hres, .inr (.inr ⟨BitVec.eq_of_toNat_eq hopc, BitVec.eq_of_toNat_eq hvar,
    congrArg₂ Instr.decrypt hmode hpad⟩)⟩

/-- Settles O1, by the instruction: a command gives its fields back, and a UOP code is one of sixteen numbers. -/
theorem decodeEncodeAgree : Obligations.DecodeEncodeAgree := by
  intro i hwf
  cases i with
  | construct var => exact decode_encode_construct (of_decide_eq_true hwf)
  | encrypt mode pad => exact decode_encode_encrypt (of_decide_eq_true hwf) pad
  | decrypt mode pad => exact decode_encode_decrypt (of_decide_eq_true hwf) pad
  | rfEnc wsel | rfDec wsel => cases wsel <;> rfl
  | _ => rfl

/-- A word without reserved bits is determined by its fields. -/
theorem cmdWord_fields {c : BitVec 32} (hres : cmdReservedZero c = true) :
    cmdWord (cmdOpc c).toNat (cmdVar c).toNat (cmdMode c).toNat (Padding.ofBit (cmdPad c)) = c :=
  (cmdWord_eq_iff (cmdOpc c).isLt (cmdVar c).isLt (cmdMode c).isLt _ c).mpr ⟨hres, rfl, rfl, rfl, rfl⟩

theorem encode_of_decode_cmd32 {c : BitVec 32} {i : Instr} (h : decode (.cmd32 c) = .ok i) :
    i.WellFormed = true ∧ encode i = .cmd32 c := by
  obtain ⟨hres, hcases⟩ := (decode_cmd32_eq_ok_iff c i).mp h
  have hword := cmdWord_fields hres
  rcases hcases with ⟨hopc, ⟨hmode, hpad⟩, rfl⟩ | ⟨hopc, hvar, rfl⟩ | ⟨hopc, hvar, rfl⟩
  · rw [hopc, hmode, hpad] at hword
    exact ⟨decide_eq_true (cmdVar c).isLt, congrArg Code.cmd32 hword⟩
  all_goals
    rw [hopc, hvar] at hword
    exact ⟨decide_eq_true (cmdMode c).isLt, congrArg Code.cmd32 hword⟩

/-- Each arm of the UOP decoder names one number, and it is the number the encoder writes. -/
theorem encode_of_decode_uop8 {u : BitVec 8} {i : Instr} (h : decode (.uop8 u) = .ok i) :
    i.WellFormed = true ∧ encode i = .uop8 u := by
  rw [decode, decodeUop] at h
  split at h <;> cases h
  all_goals
    next hu => exact ⟨rfl, congrArg Code.uop8 (BitVec.eq_of_toNat_eq hu.symm)⟩

/-- Settles O2, by the code's format. -/
theorem decodedCodesEncodeBack : Obligations.DecodedCodesEncodeBack := by
  intro c i h
  cases c with
  | cmd32 c => exact encode_of_decode_cmd32 h
  | uop8 u => exact encode_of_decode_uop8 h

/-- Settles O3, by running the decoder. -/
theorem listedCodesDecode : Obligations.ListedCodesDecode := by
  unfold Obligations.ListedCodesDecode
  decide

end Sys2Proof

/-!
PROOFS, illegal command words (30_encoding.md R85, 46_dispatcher.md R225).
-/

namespace Sys2Proof.Machine

/-- A 4-bit opcode that is not reserved is that of one of the three commands (R81). -/
theorem opcode_reserved_iff (opc : BitVec 4) :
    (opc = 0#4 ∨ 4 ≤ opc.toNat) ↔ ¬(opc = 1#4 ∨ opc = 2#4 ∨ opc = 3#4) := by
  revert opc
  decide

/-- No case of R85 holds: the reserved bits are 0 and the opcode is a command's, with its unused fields 0. -/
theorem not_illegalWord_iff (c : BitVec 32) :
    ¬IllegalWord c ↔ cmdReservedZero c = true ∧
      ((cmdOpc c = 1#4 ∧ cmdMode c = 0#2 ∧ cmdPad c = 0#1) ∨
        ((cmdOpc c = 2#4 ∨ cmdOpc c = 3#4) ∧ cmdVar c = 0#3)) := by
  simp only [IllegalWord, opcode_reserved_iff, cmdReservedZero, cmdOpc, cmdVar, cmdMode, cmdPad, Bool.and_eq_true,
    beq_iff_eq]
  grind

/-- R86 decodes the words that R85 does not name. -/
theorem decodes_iff_not_illegalWord (c : BitVec 32) : (∃ i, decode (.cmd32 c) = .ok i) ↔ ¬IllegalWord c := by
  simp only [decode_cmd32_eq_ok_iff, not_illegalWord_iff, exists_and_left, exists_or, exists_eq', and_true,
    or_and_right]

theorem illegalWord_iff (c : BitVec 32) : IllegalWord c ↔ ∀ i, decode (.cmd32 c) ≠ .ok i := by
  rw [← not_exists, decodes_iff_not_illegalWord, not_not]

/-- Settles O4: an illegal word does not decode, so the step with it ends in `fail`; code 6 is read off STATUS. -/
theorem illegalWordsReportIllegalCommand : Obligations.IllegalWordsReportIllegalCommand := by
  refine ⟨illegalWord_iff, fun s c rest hu hh hill => ?_⟩
  cases hd : decode (.cmd32 c) with
  | ok i => exact absurd hd ((illegalWord_iff c).mp hill i)
  | error e => exact ⟨_, step_of_illegalWord hu hh hd, failedWith_fail _ _, (statusFieldsStandInTheirBits.2 _).1⟩

end Sys2Proof.Machine

/-!
PROOFS, the step that takes its instruction from the select lines or from a word of the opcode table (30_encoding.md
R89, logs 8, 11 and 16).
-/

namespace Sys2Proof.Machine

theorem step_of_selected {s : State} {u : BitVec 8} {i : Instr} (hu : s.uop = some u) (hi : decode (.uop8 u) = .ok i) :
    step s = exec i { s with uop := none } := by
  simp only [step, nextIssue, hu, issueCode, hi]

theorem step_of_unusedUop {s : State} {u : BitVec 8} {e : DecodeError} (hu : s.uop = some u)
    (he : decode (.uop8 u) = .error e) : step s = .refused .unusedUop := by
  simp only [step, nextIssue, hu, issueCode, he]

/-- Settles O6, by what the decoder answers for the selected code. -/
theorem selectedUopRuns : Obligations.SelectedUopRuns :=
  fun _ _ hu => ⟨fun _ => step_of_selected hu, fun _ => step_of_unusedUop hu⟩

theorem decodeTableWord_eq_some_iff (nbits w : Nat) (i : Instr) :
    decodeTableWord nbits w = some i ↔ decode (codeOfTable nbits w) = .ok i := by
  rw [decodeTableWord]
  cases decode (codeOfTable nbits w) <;> simp

/-- Settles O7: a UOP code stands on the select lines, a command word is the next write to CMD. -/
theorem fetchWordIsRun : Obligations.FetchWordIsRun := by
  intro s nbits w i h
  have hi := (decodeTableWord_eq_some_iff nbits w i).mp h
  by_cases hn : nbits ≤ 8
  · rw [codeOfTable, if_pos hn] at hi
    rw [if_pos hn, State.withFetchWord, codeOfTable, if_pos hn]
    exact step_of_selected rfl hi
  · rw [codeOfTable, if_neg hn] at hi
    rw [if_neg hn, State.withFetchWord, codeOfTable, if_neg hn]
    exact step_of_command rfl rfl hi

end Sys2Proof.Machine

/-!
PROOFS, the table look-up (40_variant_table.md R110, R111): the row of each tag, and what VT_LOOKUP and KS_EXPAND do for
a tag that has a row and for one that has none.
-/

namespace Sys2Proof.Machine

/-- A tag of at most 4 has a row. -/
theorem exists_row_of_le {tag : Nat} (h : tag ≤ 4) : ∃ row, vtLookup tag = some row :=
  Option.ne_none_iff_exists'.mp fun hnone => absurd ((vtLookup_eq_none_iff tag).mp hnone) (Nat.not_lt.mpr h)

theorem execVtLookup_of_row {s : State} {row : VariantRow} (h : vtLookup s.ports.tag.toNat = some row) :
    execVtLookup s = .next { s with ports := { s.ports with row := some row } } := by
  simp only [execVtLookup, h]

theorem execVtLookup_of_none {s : State} (h : vtLookup s.ports.tag.toNat = none) :
    execVtLookup s = .next (fail .unimplementedVariant s) := by
  simp only [execVtLookup, h]

/-- The row of a tag known by its number is the one the table lists there. -/
theorem row_of_tag {tag k : BitVec 3} {row r : VariantRow} (hrow : vtLookup tag.toNat = some row)
    (hk : vtLookup k.toNat = some r) (htag : tag = k) : row = r ∧ keyLength row = keyLength r := by
  have hr : row = r := by
    rw [htag, hk] at hrow
    exact (Option.some.inj hrow).symm
  exact ⟨hr, congrArg keyLength hr⟩

/-- Settles O14: a tag of at most 4 has a row, which the table gives for each of the five, and a larger tag fails. -/
theorem variantTableLookup : Obligations.VariantTableLookup := by
  refine ⟨rfl, fun s => ⟨fun htag => ?_, fun htag => ?_⟩⟩
  · obtain ⟨row, hrow⟩ := exists_row_of_le htag
    exact ⟨row, execVtLookup_of_row hrow, row_of_tag hrow rfl, row_of_tag hrow rfl, row_of_tag hrow rfl,
      row_of_tag hrow rfl, row_of_tag hrow rfl⟩
  · exact ⟨_, execVtLookup_of_none ((vtLookup_eq_none_iff _).mpr htag), failedWith_fail _ s⟩

/-- On a tag with a row KS_EXPAND changes no more than RK, the working registers A and TAP, the index counters and the
draw counter; what it writes there is named, so that no later proof evaluates the schedule. -/
theorem exists_execKsExpand_of_row {s : State} {row : VariantRow} (h : vtLookup s.ports.tag.toNat = some row) :
    ∃ rk a tap, execKsExpand s =
      .next ({ s with rk := rk, work := { s.work with a := a, tap := tap } }).releaseCounters :=
  ⟨_, _, _, execKsExpand_of_row h⟩

/-- Settles O16: with a row the schedule's writes are all that changes, and without one the look-up fails. -/
theorem keyExpansionAlwaysCompletes : Obligations.KeyExpansionAlwaysCompletes := by
  refine fun s => ⟨fun htag => ?_, fun htag => ?_⟩
  · obtain ⟨row, hrow⟩ := exists_row_of_le htag
    obtain ⟨rk, a, tap, hexec⟩ := exists_execKsExpand_of_row hrow
    exact ⟨_, hexec, rfl, rfl, rfl, rfl, rfl, rfl, bytesKept_of_mem rfl rfl, ⟨rfl, rfl, rfl, rfl, rfl, rfl, rfl⟩,
      ⟨rfl, rfl, rfl⟩⟩
  · exact ⟨_, execKsExpand_of_none ((vtLookup_eq_none_iff _).mpr htag), failedWith_fail _ s⟩

end Sys2Proof.Machine

/-!
PROOFS, the rotations (00_scope.md R9): their integer form, their bits, and that each undoes the other.
-/

namespace Sys2Proof.Machine

theorem toNat_ror {w : Nat} (v : BitVec w) (r : Nat) : (ror v r).toNat = rorNat w v.toNat r := by
  have hlt : v.toNat >>> r < 2 ^ w := (v >>> r).isLt
  rw [rorNat, Nat.or_mod_two_pow, Nat.mod_eq_of_lt hlt]
  rfl

theorem toNat_rol {w : Nat} (v : BitVec w) (r : Nat) : (rol v r).toNat = rolNat w v.toNat r := by
  have hlt : v.toNat >>> (w - r) < 2 ^ w := (v >>> (w - r)).isLt
  rw [rolNat, Nat.or_mod_two_pow, Nat.mod_eq_of_lt hlt]
  rfl

/-- A rotation to the right is one to the left by the rest of the width. -/
theorem ror_eq_rol {w r : Nat} (h : r ≤ w) (v : BitVec w) : ror v r = rol v (w - r) := by
  rw [ror, rol, Nat.sub_sub_self h, BitVec.or_comm]

theorem getLsbD_rol {w r : Nat} (h : r ≤ w) (v : BitVec w) {i : Nat} (hi : i < w) :
    (rol v r).getLsbD i = v.getLsbD (if i < r then i + (w - r) else i - r) := by
  split
  case isTrue hlow => simp [rol, hlow, Nat.add_comm]
  case isFalse hhigh =>
    have hout : v.getLsbD (w - r + i) = false := BitVec.getLsbD_of_ge _ _ (by omega)
    simp [rol, hhigh, hi, hout, -BitVec.getLsbD_eq_getElem]

/-- Bit i comes back: what one rotation moves by r bits the other moves by w - r, which is once around the word. -/
theorem rol_ror {w r : Nat} (h : r ≤ w) (v : BitVec w) : rol (ror v r) r = v := by
  refine BitVec.eq_of_getLsbD_eq fun i hi => ?_
  rw [getLsbD_rol h _ hi, ror_eq_rol h, getLsbD_rol (Nat.sub_le w r) _ (by split <;> omega)]
  congr 1
  split <;> split <;> omega

theorem ror_rol {w r : Nat} (h : r ≤ w) (v : BitVec w) : ror (rol v r) r = v := by
  have hrol : rol v r = ror v (w - r) := by rw [ror_eq_rol (Nat.sub_le w r), Nat.sub_sub_self h]
  rw [ror_eq_rol h, hrol, rol_ror (Nat.sub_le w r)]

end Sys2Proof.Machine

/-!
PROOFS, the round function (41_round_function.md): the two rounds on W-bit words, the datapath as one form for both
widths, and the rounds on it.
-/

namespace Sys2Proof.Machine

/-! ### The rounds on words -/

section
variable {w : Nat} (x y k : BitVec w)

/-- The first half of R121's closed form, on integers. -/
theorem toNat_rfEncWord_fst :
    (rfEncWord x y k).1.toNat = ((rorNat w x.toNat alpha + y.toNat) % 2 ^ w) ^^^ k.toNat := by
  rw [rfEncWord, BitVec.toNat_xor, BitVec.toNat_add, toNat_ror]

/-- The second half of R121's closed form, on integers. -/
theorem toNat_rfEncWord_snd :
    (rfEncWord x y k).2.toNat = rolNat w y.toNat beta ^^^ (rfEncWord x y k).1.toNat := by
  rw [← toNat_rol, ← BitVec.toNat_xor, rfEncWord]

/-- The first half of R122's closed form, on integers. -/
theorem toNat_rfDecWord_snd : (rfDecWord x y k).2.toNat = rorNat w (y.toNat ^^^ x.toNat) beta := by
  rw [rfDecWord, toNat_ror, BitVec.toNat_xor]

/-- The second half of R122's closed form, on integers. -/
theorem toNat_rfDecWord_fst : (rfDecWord x y k).1.toNat =
    rolNat w (((x.toNat ^^^ k.toNat) + 2 ^ w - (rfDecWord x y k).2.toNat) % 2 ^ w) alpha := by
  rw [Nat.add_sub_assoc (rfDecWord x y k).2.isLt.le, ← BitVec.toNat_xor, ← BitVec.toNat_sub',
    ← toNat_rol, rfDecWord]

/-- R125 on words of any width that the rotations fit. -/
theorem rfDecWord_rfEncWord (h : alpha ≤ w) :
    rfDecWord (rfEncWord x y k).1 (rfEncWord x y k).2 k = (x, y) := by
  have hy : ror (rol y beta) beta = y := ror_rol (le_trans (by decide) h) y
  simp [rfEncWord, rfDecWord, hy, rol_ror h]

theorem rfEncWord_rfDecWord (h : alpha ≤ w) :
    rfEncWord (rfDecWord x y k).1 (rfDecWord x y k).2 k = (x, y) := by
  have hy : rol (ror (y ^^^ x) beta) beta = y ^^^ x := rol_ror (le_trans (by decide) h) _
  simp [rfEncWord, rfDecWord, hy, ror_rol h]

end

/-! ### The datapath -/

theorem bits_le_64 (w : Width) : w.bits ≤ 64 := by cases w <;> decide

theorem alpha_le_bits (w : Width) : alpha ≤ w.bits := by cases w <;> decide

/-- Two n-bit words on the 64-bit lines (R126). -/
def widen {n : Nat} (r : BitVec n × BitVec n) : Block := ⟨r.1.setWidth 64, r.2.setWidth 64⟩

/-- One form for both widths: cut the inputs to W bits, run the round, zero-extend the outputs. -/
theorem onDatapath_eq (round : ∀ {n : Nat}, BitVec n → BitVec n → BitVec n → BitVec n × BitVec n)
    (w : Width) (b : Block) (k : Word) : onDatapath round round w b k =
      widen (round (b.x.setWidth w.bits) (b.y.setWidth w.bits) (k.setWidth w.bits)) := by
  cases w with
  | w32 => rfl
  | w64 => simp [onDatapath, widen, Width.bits]

theorem rfEnc_eq (w : Width) (b : Block) (k : Word) : rfEnc w b k =
    widen (rfEncWord (b.x.setWidth w.bits) (b.y.setWidth w.bits) (k.setWidth w.bits)) :=
  onDatapath_eq rfEncWord w b k

theorem rfDec_eq (w : Width) (b : Block) (k : Word) : rfDec w b k =
    widen (rfDecWord (b.x.setWidth w.bits) (b.y.setWidth w.bits) (k.setWidth w.bits)) :=
  onDatapath_eq rfDecWord w b k

section
variable {w : Width} (r : BitVec w.bits × BitVec w.bits)

@[simp] theorem toNat_widen_x : (widen r).x.toNat = r.1.toNat := BitVec.toNat_setWidth_of_le (bits_le_64 w)

@[simp] theorem toNat_widen_y : (widen r).y.toNat = r.2.toNat := BitVec.toNat_setWidth_of_le (bits_le_64 w)

@[simp] theorem setWidth_widen_x : (widen r).x.setWidth w.bits = r.1 := by
  exact (BitVec.setWidth_setWidth_of_le _ (bits_le_64 w)).trans (BitVec.setWidth_eq _)

@[simp] theorem setWidth_widen_y : (widen r).y.setWidth w.bits = r.2 := by
  exact (BitVec.setWidth_setWidth_of_le _ (bits_le_64 w)).trans (BitVec.setWidth_eq _)

theorem blockFits_widen : BlockFits w (widen r) := by
  rw [BlockFits, toNat_widen_x, toNat_widen_y]
  exact ⟨r.1.isLt, r.2.isLt⟩

end

/-- A block of W-bit words is the zero-extension of its low halves. -/
theorem widen_of_blockFits {w : Width} {b : Block} (h : BlockFits w b) :
    widen (b.x.setWidth w.bits, b.y.setWidth w.bits) = b := by
  have whole {v : Word} (hv : v.toNat < 2 ^ w.bits) : (v.setWidth w.bits).setWidth 64 = v :=
    BitVec.eq_of_toNat_eq <| by
      rw [BitVec.toNat_setWidth_of_le (bits_le_64 w), BitVec.toNat_setWidth, Nat.mod_eq_of_lt hv]
  obtain ⟨hx, hy⟩ := h
  exact congrArg₂ Block.mk (whole hx) (whole hy)

theorem blockFits_rfEnc (w : Width) (b : Block) (k : Word) : BlockFits w (rfEnc w b k) := by
  rw [rfEnc_eq]
  exact blockFits_widen _

theorem blockFits_rfDec (w : Width) (b : Block) (k : Word) : BlockFits w (rfDec w b k) := by
  rw [rfDec_eq]
  exact blockFits_widen _

theorem rfDec_rfEnc {w : Width} {b : Block} (h : BlockFits w b) (k : Word) : rfDec w (rfEnc w b k) k = b := by
  rw [rfDec_eq, rfEnc_eq, setWidth_widen_x, setWidth_widen_y, rfDecWord_rfEncWord _ _ _ (alpha_le_bits w),
    widen_of_blockFits h]

theorem rfEnc_rfDec {w : Width} {b : Block} (h : BlockFits w b) (k : Word) : rfEnc w (rfDec w b k) k = b := by
  rw [rfEnc_eq, rfDec_eq, setWidth_widen_x, setWidth_widen_y, rfEncWord_rfDecWord _ _ _ (alpha_le_bits w),
    widen_of_blockFits h]

/-! ### The obligations -/

/-- Settles O10: the outputs are the word round's, whose integer form is R121's, and the output
ports are all that changes. -/
theorem rfEncIsTheEncryptRound : Obligations.RfEncIsTheEncryptRound := by
  refine ⟨rfl, rfl, fun w s => ⟨_, rfl, ?_, ?_, rfl⟩⟩
  · simp [rfEnc_eq, toNat_rfEncWord_fst, alpha, State.blockIn]
  · simp [rfEnc_eq, toNat_rfEncWord_snd, beta, State.blockIn]

/-- Settles O11: as for RF_ENC, with the integer form of R122. -/
theorem rfDecIsTheDecryptRound : Obligations.RfDecIsTheDecryptRound := by
  refine ⟨rfl, rfl, fun w s => ⟨_, rfl, ?_, ?_, rfl⟩⟩
  · simp [rfDec_eq, toNat_rfDecWord_snd, beta, State.blockIn]
  · simp [rfDec_eq, toNat_rfDecWord_fst, alpha, State.blockIn]

/-- Settles O12: the word rounds undo each other, and a block that fits passes the datapath whole. -/
theorem roundsAreInverse : Obligations.RoundsAreInverse := fun _ _ k h => ⟨rfDec_rfEnc h k, rfEnc_rfDec h k⟩

/-- Settles O13: the round reads its inputs cut to 32 bits, where the two runs agree, and widens its outputs. -/
theorem narrowRoundIgnoresUpperBits : Obligations.NarrowRoundIgnoresUpperBits := by
  intro b b' k k' hx hy hk
  have cut {u v : Word} (h : u.toNat % 2 ^ 32 = v.toNat % 2 ^ 32) : u.setWidth 32 = v.setWidth 32 :=
    BitVec.eq_of_toNat_eq (by rwa [BitVec.toNat_setWidth, BitVec.toNat_setWidth])
  refine ⟨?_, blockFits_rfEnc .w32 b k, blockFits_rfDec .w32 b k⟩
  simp only [rfEnc_eq, rfDec_eq, Width.bits, cut hx, cut hy, cut hk, and_self]

end Sys2Proof.Machine

/-!
PROOFS, the key scheduler (42_key_scheduler.md R141 to R145): both loop shapes follow one trace of the running state.
-/

namespace Sys2Proof.Machine

/-! ### The trace of the running state -/

/-- (A, TAP) after `i` rounds from the initial state (R141, R142). -/
def schedTrace (row : VariantRow) (kb : List Byte) : Nat → Sched
  | 0 => schedInit row kb
  | i + 1 => schedRound row i (schedTrace row kb i)

theorem schedTrace_succ (row : VariantRow) (kb : List Byte) (i : Nat) :
    schedTrace row kb (i + 1) = schedRound row i (schedTrace row kb i) := rfl

theorem schedLoop_schedTrace (row : VariantRow) (kb : List Byte) (count i : Nat) :
    schedLoop row count i (schedTrace row kb i) =
      ((List.range' i count).map fun j => (schedTrace row kb j).a, schedTrace row kb (i + count)) := by
  induction count generalizing i with
  | zero => rfl
  | succ count ih =>
    rw [schedLoop, ← schedTrace_succ, ih, List.range'_succ, List.map_cons, Nat.add_assoc, Nat.add_comm 1]

/-- The loop from the initial state, as R142 starts it. -/
theorem schedLoop_schedInit (row : VariantRow) (kb : List Byte) (count : Nat) :
    schedLoop row count 0 (schedInit row kb) =
      ((List.range count).map fun j => (schedTrace row kb j).a, schedTrace row kb count) := by
  rw [List.range_eq_range']
  simpa [schedTrace] using schedLoop_schedTrace row kb count 0

theorem expandShort_eq (row : VariantRow) (kb : List Byte) :
    expandShort row kb =
      ((List.range row.rounds).map fun j => (schedTrace row kb j).a, schedTrace row kb row.rounds) :=
  schedLoop_schedInit row kb row.rounds

/-- The appended A is the one that a T-th iteration would record. -/
theorem expandLong_eq {row : VariantRow} (hpos : 0 < row.rounds) (kb : List Byte) :
    expandLong row kb =
      ((List.range row.rounds).map fun j => (schedTrace row kb j).a, schedTrace row kb (row.rounds - 1)) := by
  obtain ⟨last, hlast⟩ := Nat.exists_eq_add_one.mpr hpos
  simp only [expandLong, schedLoop_schedInit, hlast, Nat.add_sub_cancel, List.range_succ, List.map_append,
    List.map_singleton]

theorem expandKey_eq {row : VariantRow} (hpos : 0 < row.rounds) (kb : List Byte) :
    expandKey row kb = ((List.range row.rounds).map fun j => (schedTrace row kb j).a,
      schedTrace row kb (if row.blockBytes = 8 then row.rounds else row.rounds - 1)) := by
  unfold expandKey
  split
  · exact expandShort_eq row kb
  · exact expandLong_eq hpos kb

/-- Settles O17: both shapes record the same trace, the short one to a state that is one round further on it. -/
theorem loopShapesGiveTheSameSchedule : Obligations.LoopShapesGiveTheSameSchedule := by
  intro row kb hpos
  rw [expandShort_eq, expandLong_eq hpos]
  refine ⟨rfl, by simp, ?_⟩
  obtain ⟨last, hlast⟩ := Nat.exists_eq_add_one.mpr hpos
  rw [hlast, Nat.add_sub_cancel, schedTrace_succ]

/-! ### The initial state and the taps -/

theorem keyWordsOf_eq_cons {row : VariantRow} (hm : 0 < row.keyWords) (kb : List Byte) :
    keyWordsOf row kb = wordAt row.width kb 0 ::
      (List.range (row.keyWords - 1)).map fun j => wordAt row.width kb ((j + 1) * row.width.bytes) := by
  obtain ⟨m, hm⟩ := Nat.exists_eq_add_one.mpr hm
  simp [keyWordsOf, hm, List.range_succ_eq_map, Function.comp_def]

theorem schedInit_eq {row : VariantRow} (hm : 0 < row.keyWords) (kb : List Byte) :
    schedInit row kb = ⟨wordAt row.width kb 0,
      (List.range (row.keyWords - 1)).map fun j => wordAt row.width kb ((j + 1) * row.width.bytes)⟩ := by
  rw [schedInit, keyWordsOf_eq_cons hm]
  rfl

/-- There are m − 1 taps throughout (R141). -/
theorem schedTrace_taps_length (row : VariantRow) (kb : List Byte) (i : Nat) :
    (schedTrace row kb i).taps.length = row.keyWords - 1 := by
  induction i with
  | zero => simp [schedTrace, schedInit, keyWordsOf]
  | succ i ih => simpa [schedTrace, schedRound] using ih

/-- A variant has at least one key word, and its taps fit the three tap registers (R24, R110). -/
theorem keyWords_of_row {tag : Nat} {row : VariantRow} (h : vtLookup tag = some row) :
    0 < row.keyWords ∧ row.keyWords - 1 ≤ 3 := by
  rcases vtLookup_cases h with ⟨-, rfl⟩ | ⟨-, rfl⟩ | ⟨-, rfl⟩ | ⟨-, rfl⟩ | ⟨-, rfl⟩ <;> decide

/-! ### What KS_EXPAND writes -/

theorem getElem?_rkFileOf {schedule : List Word} {i : Nat} (hi : i < schedule.length) (h34 : i < 34) (draw : Nat) :
    (rkFileOf schedule draw)[i]? = schedule[i]? := by
  simp [rkFileOf, hi, h34]

theorem getElem?_tapsHolding_of_lt {taps : List Word} {j : Nat} (hj : j < taps.length) (h3 : j < 3)
    (old : Vector Word 3) : (tapsHolding taps old)[j]? = taps[j]? := by
  simp [tapsHolding, hj, h3]

theorem getElem?_tapsHolding_of_ge {taps : List Word} {j : Nat} (hj : taps.length ≤ j) (old : Vector Word 3) :
    (tapsHolding taps old)[j]? = old[j]? := by
  rcases Nat.lt_or_ge j 3 with h3 | h3
  · simp [tapsHolding, hj, h3]
  · simp [tapsHolding, Nat.not_lt.mpr h3]

/-- The writes of KS_EXPAND: RK, A and TAP get values, and the index counters any value (R142, log 9). -/
def State.writeSchedule (s : State) (rk : Vector Word 34) (a : Word) (tap : Vector Word 3) : State :=
  ({ s with rk := rk, work := { s.work with a := a, tap := tap } }).releaseCounters

section
variable (s : State) (rk : Vector Word 34) (a : Word) (tap : Vector Word 3)

@[simp] theorem writeSchedule_rk : (s.writeSchedule rk a tap).rk = rk := rfl

@[simp] theorem writeSchedule_work_a : (s.writeSchedule rk a tap).work.a = a := rfl

@[simp] theorem writeSchedule_work_tap : (s.writeSchedule rk a tap).work.tap = tap := rfl

/-- Stated for any values, so that no proof about the frame evaluates the schedule. -/
theorem writeSchedule_frame :
    let t := s.writeSchedule rk a tap
    t.work.x = s.work.x ∧ t.work.y = s.work.y ∧ t.work.prev = s.work.prev ∧ t.ports = s.ports ∧
      t.keyValid = s.keyValid ∧ t.variant = s.variant ∧ BytesKept s t ∧ HostSideKept s t ∧ OutcomeKept s t :=
  ⟨rfl, rfl, rfl, rfl, rfl, rfl, bytesKept_of_mem rfl rfl, ⟨rfl, rfl, rfl, rfl, rfl, rfl, rfl⟩, ⟨rfl, rfl, rfl⟩⟩

end

/-- A key operand of the key length is expanded as it stands. -/
theorem exec_ksExpand_of_row {s : State} {row : VariantRow} (hrow : vtLookup s.ports.tag.toNat = some row)
    (hlen : s.ports.bytesIn.length = keyLength row) :
    exec .ksExpand s = .next (s.writeSchedule (rkFileOf (expandKey row s.ports.bytesIn).1 s.draws)
      (expandKey row s.ports.bytesIn).2.a (tapsHolding (expandKey row s.ports.bytesIn).2.taps s.work.tap)) := by
  have h := execKsExpand_of_row hrow
  rwa [driven_of_le hlen.ge] at h

/-- Settles O15: the schedule is the trace (`expandKey_eq`), and the registers hold it entry by entry. -/
theorem keyExpansionFollowsTheLoop : Obligations.KeyExpansionFollowsTheLoop := by
  refine ⟨rfl, fun s row hrow hlen => ?_⟩
  obtain ⟨hpos, hfile⟩ := rounds_of_row hrow
  obtain ⟨hm, hregs⟩ := keyWords_of_row hrow
  have hinit := schedInit_eq hm s.ports.bytesIn
  have hexpand := expandKey_eq hpos s.ports.bytesIn
  have hrounds := expandKey_length hpos s.ports.bytesIn
  have htaps := schedTrace_taps_length row s.ports.bytesIn
  refine ⟨_, schedTrace row s.ports.bytesIn, exec_ksExpand_of_row hrow hlen, congrArg Sched.a hinit,
    congrArg Sched.taps hinit, fun i => ⟨rfl, rfl⟩, fun i hi => ?_, ?_, ?_, fun j hj => ?_, fun j hj => ?_,
    writeSchedule_frame s ..⟩
  · rw [writeSchedule_rk, getElem?_rkFileOf (hi.trans_eq hrounds.symm) (hi.trans_le hfile), hexpand]
    simp [hi]
  · rw [State.roundKeys, writeSchedule_rk, ← hrounds]
    exact take_rkFileOf (hrounds.trans_le hfile) s.draws
  · rw [writeSchedule_work_a, hexpand]
  · rw [writeSchedule_work_tap, hexpand]
    exact getElem?_tapsHolding_of_lt (hj.trans_eq (htaps _).symm) (hj.trans_le hregs) s.work.tap
  · rw [writeSchedule_work_tap, hexpand]
    exact getElem?_tapsHolding_of_ge ((htaps _).trans_le hj) s.work.tap

end Sys2Proof.Machine

/-!
PROOFS, the block engine (43_block_engine.md R160 to R163): a pass is a trace of rounds over the round keys, ascending
or descending, and the two passes undo each other.
-/

namespace Sys2Proof.Machine

/-! ### The trace of a pass -/

/-- The block after the first `i` rounds of a pass that takes the keys in the order of the list. -/
def roundTrace (round : Block → Word → Block) (keys : List Word) (b : Block) (i : Nat) : Block :=
  (keys.take i).foldl round b

section
variable (round : Block → Word → Block) (keys : List Word) (b : Block)

theorem roundTrace_zero : roundTrace round keys b 0 = b := rfl

theorem roundTrace_succ {i : Nat} {k : Word} (hk : keys[i]? = some k) :
    roundTrace round keys b (i + 1) = round (roundTrace round keys b i) k := by
  simp [roundTrace, List.take_add_one, hk]

theorem roundTrace_length : roundTrace round keys b keys.length = keys.foldl round b := by
  rw [roundTrace, List.take_length]

end

theorem encBlock_eq_roundTrace (w : Width) (rks : List Word) (b : Block) :
    encBlock w rks b = roundTrace (rfEnc w) rks b rks.length :=
  (roundTrace_length _ rks b).symm

/-- The decrypt pass takes the round keys from the last to the first (R161). -/
theorem decBlock_eq_roundTrace (w : Width) (rks : List Word) (b : Block) :
    decBlock w rks b = roundTrace (rfDec w) rks.reverse b rks.length := by
  rw [← List.length_reverse, roundTrace_length, decBlock, List.foldl_reverse]

/-! ### The round keys -/

/-- The round-key file has an entry for every round of a row (R22). -/
theorem roundKeys_length {s : State} {row : VariantRow} (hrow : s.variantRow = some row) :
    (s.roundKeys row.rounds).length = row.rounds := by
  simpa [State.roundKeys] using (rounds_of_row hrow).2

theorem getElem?_roundKeys (s : State) {rounds i : Nat} (hi : i < rounds) : (s.roundKeys rounds)[i]? = s.rk[i]? := by
  simp [State.roundKeys, hi]

theorem exists_roundKey {s : State} {row : VariantRow} (hrow : s.variantRow = some row) {i : Nat}
    (hi : i < row.rounds) : ∃ k, s.rk[i]? = some k :=
  ⟨_, Vector.getElem?_eq_getElem (hi.trans_le (rounds_of_row hrow).2)⟩

theorem getElem?_reverse_roundKeys {s : State} {row : VariantRow} (hrow : s.variantRow = some row) {i : Nat}
    (hi : i < row.rounds) : (s.roundKeys row.rounds).reverse[i]? = s.rk[row.rounds - 1 - i]? := by
  have hlen := roundKeys_length hrow
  rw [List.getElem?_reverse (hi.trans_eq hlen.symm), hlen, getElem?_roundKeys s (by omega)]

/-! ### What the engine writes -/

/-- Stated for any pass, so that no proof about the frame runs the rounds. -/
theorem engineUop_effect {s : State} {row : VariantRow} (hrow : s.variantRow = some row)
    (pass : Width → List Word → Block → Block) :
    let b := pass row.width (s.roundKeys row.rounds) s.blockIn
    let t := engineUop pass s
    t.work.x = b.x ∧ t.work.y = b.y ∧ t.ports = { s.ports with xOut := b.x, yOut := b.y } ∧
      UopFrame s t ∧ WorkKeptButBlock s t := by
  rw [engineUop_of_row hrow]
  exact ⟨rfl, rfl, rfl, uopFrame_of_inner s _ _ _, rfl, rfl, rfl⟩

/-- Settles O18: the trace takes the round keys as they stand in RK. -/
theorem blockEncryptionRunsAscendingRounds : Obligations.BlockEncryptionRunsAscendingRounds := by
  refine ⟨rfl, fun s row hrow => ?_⟩
  have hend := encBlock_eq_roundTrace row.width (s.roundKeys row.rounds) s.blockIn
  rw [roundKeys_length hrow] at hend
  refine ⟨engineUop encBlock s, roundTrace (rfEnc row.width) (s.roundKeys row.rounds) s.blockIn, rfl, rfl,
    fun i hi => ?_, hend.symm, ?_⟩
  · obtain ⟨k, hk⟩ := exists_roundKey hrow hi
    exact ⟨k, hk, roundTrace_succ _ _ _ ((getElem?_roundKeys s hi).trans hk)⟩
  · rw [← hend]
    exact engineUop_effect hrow encBlock

/-- Settles O19: the trace takes the round keys in reverse, so round i finds RK[T − 1 − i]. -/
theorem blockDecryptionRunsDescendingRounds : Obligations.BlockDecryptionRunsDescendingRounds := by
  refine ⟨rfl, fun s row hrow => ?_⟩
  have hend := decBlock_eq_roundTrace row.width (s.roundKeys row.rounds) s.blockIn
  rw [roundKeys_length hrow] at hend
  refine ⟨engineUop decBlock s, roundTrace (rfDec row.width) (s.roundKeys row.rounds).reverse s.blockIn, rfl, rfl,
    fun i hi => ?_, hend.symm, ?_⟩
  · obtain ⟨k, hk⟩ := exists_roundKey hrow (i := row.rounds - 1 - i) (by omega)
    exact ⟨k, hk, roundTrace_succ _ _ _ ((getElem?_reverse_roundKeys hrow hi).trans hk)⟩
  · rw [← hend]
    exact engineUop_effect hrow decBlock

/-! ### The two passes -/

theorem encBlock_cons (w : Width) (k : Word) (rks : List Word) (b : Block) :
    encBlock w (k :: rks) b = encBlock w rks (rfEnc w b k) := rfl

theorem decBlock_cons (w : Width) (k : Word) (rks : List Word) (b : Block) :
    decBlock w (k :: rks) b = rfDec w (decBlock w rks b) k := rfl

theorem blockFits_decBlock {w : Width} {b : Block} (h : BlockFits w b) (rks : List Word) :
    BlockFits w (decBlock w rks b) := by
  cases rks with
  | nil => exact h
  | cons k rks => exact blockFits_rfDec w _ k

/-- The first encrypt round is undone last. -/
theorem decBlock_encBlock {w : Width} {b : Block} (h : BlockFits w b) (rks : List Word) :
    decBlock w rks (encBlock w rks b) = b := by
  induction rks generalizing b with
  | nil => rfl
  | cons k rks ih => rw [encBlock_cons, decBlock_cons, ih (blockFits_rfEnc w b k), rfDec_rfEnc h]

/-- The last decrypt round is undone first. -/
theorem encBlock_decBlock {w : Width} {b : Block} (h : BlockFits w b) (rks : List Word) :
    encBlock w rks (decBlock w rks b) = b := by
  induction rks with
  | nil => rfl
  | cons k rks ih => rw [decBlock_cons, encBlock_cons, rfEnc_rfDec (blockFits_decBlock h rks), ih]

/-- Settles O20, by the inverse rounds of R125, one round key after the other. -/
theorem engineDirectionsAreInverse : Obligations.EngineDirectionsAreInverse :=
  fun _ rks _ h => ⟨decBlock_encBlock h rks, encBlock_decBlock h rks⟩

end Sys2Proof.Machine

/-!
PROOFS, the bytewise XOR of blocks (44_mode_drivers.md R185): on the values of the byte sequences and of the words read
out of them.
-/

namespace Sys2Proof.Machine

@[simp] theorem xorBytes_length (s t : List Byte) : (xorBytes s t).length = min s.length t.length :=
  List.length_zipWith

/-- XOR keeps each bit at its place, so it works on the lowest byte and on the bytes above it apart. -/
theorem xor_byte_add (a b m n : Nat) (ha : a < 256) (hb : b < 256) :
    (a + 256 * m) ^^^ (b + 256 * n) = (a ^^^ b) + 256 * (m ^^^ n) := by
  have hmod : ((a + 256 * m) ^^^ (b + 256 * n)) % 2 ^ 8 = a ^^^ b := by
    rw [Nat.xor_mod_two_pow]
    congr 1 <;> omega
  have hdiv : ((a + 256 * m) ^^^ (b + 256 * n)) / 2 ^ 8 = m ^^^ n := by
    rw [Nat.xor_div_two_pow]
    congr 1 <;> omega
  omega

theorem le_xorBytes {s t : List Byte} (hlen : s.length = t.length) : le (xorBytes s t) = le s ^^^ le t := by
  induction s generalizing t with
  | nil => simp [List.length_eq_zero_iff.mp hlen.symm, xorBytes, le]
  | cons b bs ih =>
    match t, hlen with
    | c :: cs, hlen =>
      calc le (xorBytes (b :: bs) (c :: cs))
        _ = (b.toNat ^^^ c.toNat) + 256 * le (xorBytes bs cs) := by simp [xorBytes, le]
        _ = le (b :: bs) ^^^ le (c :: cs) := by
          rw [ih (Nat.succ.inj hlen), le, le, xor_byte_add _ _ _ _ b.isLt c.isLt]

theorem wordAt_xorBytes (w : Width) {s t : List Byte} (hlen : s.length = t.length) (off : Nat) :
    wordAt w (xorBytes s t) off = wordAt w s off ^^^ wordAt w t off := by
  apply BitVec.eq_of_toNat_eq
  have hparts : ((xorBytes s t).drop off).take w.bytes =
      xorBytes ((s.drop off).take w.bytes) ((t.drop off).take w.bytes) := by
    rw [xorBytes, List.drop_zipWith, List.take_zipWith, xorBytes]
  rw [BitVec.toNat_xor, toNat_wordAt, toNat_wordAt, toNat_wordAt, hparts, le_xorBytes (by simp [hlen])]

/-- Settles O27: each half is a word, and XOR commutes with the value of its bytes. -/
theorem bytewiseXorIsWordwise : Obligations.BytewiseXorIsWordwise :=
  fun w _ _ hp hq => ⟨wordAt_xorBytes w (hp.trans hq.symm) _, wordAt_xorBytes w (hp.trans hq.symm) _⟩

/-- The XOR with a block is undone by the XOR with the same block. -/
theorem xorBytes_xorBytes_same {s t : List Byte} (hlen : s.length = t.length) : xorBytes (xorBytes s t) t = s := by
  apply le_inj
  · simp [hlen]
  · rw [le_xorBytes (by simp [hlen]), le_xorBytes hlen, Nat.xor_assoc, Nat.xor_self, Nat.xor_zero]

end Sys2Proof.Machine

/-!
PROOFS, one block through the engine (44_mode_drivers.md R181, R182): the codec gives a block of W-bit words back, so
the two directions undo each other on the bytes of a block.
-/

namespace Sys2Proof.Machine

theorem bits_eq (w : Width) : w.bits = 8 * w.bytes := by cases w <;> rfl

theorem wordAt_lt (w : Width) (s : List Byte) (off : Nat) : (wordAt w s off).toNat < 2 ^ w.bits := by
  rw [toNat_wordAt, le_take, bits_eq]
  exact Nat.mod_lt _ (Nat.two_pow_pos _)

theorem blockFits_blockAt (w : Width) (s : List Byte) (off : Nat) : BlockFits w (blockAt w s off) :=
  ⟨wordAt_lt .., wordAt_lt ..⟩

/-- Words that fit W bits come back from their bytes: y stands in the first n bytes, x in the n bytes after them. -/
theorem blockAt_blockBytesOf {w : Width} {b : Block} (h : BlockFits w b) : blockAt w (blockBytesOf w b) 0 = b := by
  obtain ⟨hx, hy⟩ := h
  rw [bits_eq] at hx hy
  have hyWord : wordAt w (blockBytesOf w b) 0 = b.y := by
    apply BitVec.eq_of_toNat_eq
    rw [toNat_wordAt, blockBytesOf, List.drop_zero, List.take_left' (toLE_length ..), le_toLE, Nat.mod_eq_of_lt hy]
  have hxWord : wordAt w (blockBytesOf w b) (0 + w.bytes) = b.x := by
    apply BitVec.eq_of_toNat_eq
    rw [toNat_wordAt, blockBytesOf, Nat.zero_add, List.drop_left' (toLE_length ..),
      List.take_of_length_le (toLE_length ..).le, le_toLE, Nat.mod_eq_of_lt hx]
  rw [blockAt, hyWord, hxWord]

theorem blockFits_encBlock {w : Width} {b : Block} (h : BlockFits w b) (rks : List Word) :
    BlockFits w (encBlock w rks b) := by
  induction rks generalizing b with
  | nil => exact h
  | cons k rks ih => exact ih (blockFits_rfEnc w b k)

theorem throughEngine_dec_enc {w : Width} {p : List Byte} (hp : p.length = 2 * w.bytes) (rks : List Word) :
    throughEngine w (decBlock w rks) (throughEngine w (encBlock w rks) p) = p := by
  have hfits := blockFits_blockAt w p 0
  calc throughEngine w (decBlock w rks) (throughEngine w (encBlock w rks) p)
    _ = blockBytesOf w (blockAt w p 0) := by
      rw [throughEngine, throughEngine, blockAt_blockBytesOf (blockFits_encBlock hfits rks), decBlock_encBlock hfits]
    _ = p := by rw [blockBytesOf_blockAt (by omega), slice_add, ← hp, List.drop_zero, List.take_length]

end Sys2Proof.Machine

/-!
PROOFS, the blocks of a buffer (20_memory.md R62, 44_mode_drivers.md R180): block j of a buffer, of a buffer with one
more block in front, and of the list of blocks that a driver runs over.
-/

namespace Sys2Proof.Machine

/-- Block j of a buffer, `iv` before the first block: `chained` with any block in the place of the zero block, for
inductions that go down the chain. -/
def chainedFrom (row : VariantRow) (iv cipher : List Byte) (j : Nat) : List Byte :=
  if j = 0 then iv else blockSlice row cipher (j - 1)

theorem chained_eq_chainedFrom (row : VariantRow) (cipher : List Byte) (j : Nat) :
    chained row cipher j = chainedFrom row (zeroBlock row) cipher j := rfl

theorem blockSlice_eq (row : VariantRow) (s : List Byte) (j : Nat) :
    blockSlice row s j = (s.drop (j * row.blockBytes)).take row.blockBytes := by
  rw [blockSlice, Nat.succ_mul, slice_add]

section
variable {row : VariantRow} {c : List Byte} (hc : c.length = row.blockBytes) (rest : List Byte)
include hc

theorem blockSlice_append_zero : blockSlice row (c ++ rest) 0 = c := by
  rw [blockSlice_eq, Nat.zero_mul, List.drop_zero, List.take_left' hc]

theorem blockSlice_append_succ (j : Nat) : blockSlice row (c ++ rest) (j + 1) = blockSlice row rest j := by
  rw [blockSlice_eq, blockSlice_eq, Nat.succ_mul, Nat.add_comm, ← List.drop_drop, List.drop_left' hc]

/-- Down the chain, the first block takes the place of `iv`. -/
theorem chainedFrom_append_succ (iv : List Byte) (j : Nat) :
    chainedFrom row iv (c ++ rest) (j + 1) = chainedFrom row c rest j := by
  cases j with
  | zero => exact blockSlice_append_zero hc rest
  | succ j => exact blockSlice_append_succ hc rest j

theorem blocksOf_append (count : Nat) :
    blocksOf row.blockBytes (count + 1) (c ++ rest) = c :: blocksOf row.blockBytes count rest := by
  rw [blocksOf, List.take_left' hc, List.drop_left' hc]

end

/-- A buffer of whole blocks is its blocks one after the other, each of B bytes. -/
theorem blocksOf_spec {B count : Nat} {s : List Byte} (h : s.length = count * B) :
    (∀ p ∈ blocksOf B count s, p.length = B) ∧ (blocksOf B count s).flatten = s := by
  induction count generalizing s with
  | zero => simpa [blocksOf] using (List.length_eq_zero_iff.mp (h.trans (Nat.zero_mul B))).symm
  | succ count ih =>
    rw [Nat.succ_mul] at h
    obtain ⟨hlen, hflat⟩ := ih (s := s.drop B) (by rw [List.length_drop]; omega)
    refine ⟨List.forall_mem_cons.mpr ⟨?_, hlen⟩, ?_⟩
    · rw [List.length_take]
      omega
    · rw [blocksOf, List.flatten_cons, hflat, List.take_append_drop]

theorem blocksOf_getElem {B count j : Nat} {s : List Byte} (h : j < (blocksOf B count s).length) :
    (blocksOf B count s)[j] = (s.drop (j * B)).take B := by
  induction count generalizing s j with
  | zero => exact absurd h (Nat.not_lt_zero j)
  | succ count ih =>
    cases j with
    | zero => simp [blocksOf]
    | succ j =>
      have hj : j < (blocksOf B count (s.drop B)).length := Nat.lt_of_succ_lt_succ h
      calc (blocksOf B (count + 1) s)[j + 1]
        _ = ((s.drop B).drop (j * B)).take B := ih hj
        _ = (s.drop ((j + 1) * B)).take B := by rw [List.drop_drop, Nat.succ_mul, Nat.add_comm]

theorem bufBlocks_length (row : VariantRow) (buf : List Byte) :
    (bufBlocks row buf).length = buf.length / row.blockBytes := blocksOf_length ..

theorem bufBlocks_getElem {row : VariantRow} {buf : List Byte} {j : Nat} (h : j < (bufBlocks row buf).length) :
    (bufBlocks row buf)[j] = blockSlice row buf j :=
  (blocksOf_getElem h).trans (blockSlice_eq row buf j).symm

section
variable {row : VariantRow} {buf : List Byte} (ha : Aligned row buf)
include ha

theorem length_of_aligned : buf.length = buf.length / row.blockBytes * row.blockBytes :=
  (Nat.div_mul_cancel (Nat.dvd_of_mod_eq_zero ha)).symm

theorem length_of_mem_bufBlocks : ∀ p ∈ bufBlocks row buf, p.length = row.blockBytes :=
  (blocksOf_spec (length_of_aligned ha)).1

theorem bufBlocks_flatten : (bufBlocks row buf).flatten = buf := (blocksOf_spec (length_of_aligned ha)).2

/-- The last block, which a CBC driver leaves in `PREV`, is the one that would be chained into a further block. -/
theorem chainEnd_eq_chained (hB : 0 < row.blockBytes) :
    chainEnd row buf = chained row buf (buf.length / row.blockBytes) := by
  have hlen := length_of_aligned ha
  cases hcount : buf.length / row.blockBytes with
  | zero =>
    have hnil : buf = [] := List.length_eq_zero_iff.mp (by rw [hlen, hcount, Nat.zero_mul])
    rw [chainEnd, if_pos hnil, chained_eq_chainedFrom, chainedFrom, if_pos rfl]
  | succ last =>
    rw [hcount, Nat.succ_mul] at hlen
    have hne : buf ≠ [] := List.ne_nil_of_length_pos (by omega)
    have hstart : buf.length - row.blockBytes = last * row.blockBytes := by omega
    rw [chainEnd, if_neg hne, chained, if_neg (Nat.succ_ne_zero last), Nat.add_sub_cancel, blockSlice_eq, lastBytes,
      hstart, List.take_of_length_le (by rw [List.length_drop]; omega)]

end

/-- A block of the table's size is read the same from its buffer and by itself. -/
theorem blockAt_blockSlice {row : VariantRow} (hB : row.blockBytes = 2 * row.width.bytes) (buf : List Byte) (j : Nat) :
    blockAt row.width (blockSlice row buf j) 0 = blockAt row.width buf (j * row.blockBytes) := by
  have hword {off : Nat} (hoff : off + row.width.bytes ≤ row.blockBytes) :
      wordAt row.width (blockSlice row buf j) off = wordAt row.width buf (j * row.blockBytes + off) := by
    rw [wordAt, wordAt, blockSlice_eq, List.drop_take, List.drop_drop, List.take_take, min_eq_left (by omega)]
  rw [blockAt, blockAt, hword (by omega), hword (by omega), Nat.zero_add, Nat.add_zero]

end Sys2Proof.Machine

/-!
PROOFS, the runs over the blocks (44_mode_drivers.md R181 to R184): block j of each run, and decryption after
encryption.
-/

namespace Sys2Proof.Machine

section
variable {row : VariantRow} (hB : row.blockBytes = 2 * row.width.bytes) (engine : Block → Block)
include hB

theorem throughEngine_length_blockBytes (p : List Byte) :
    (throughEngine row.width engine p).length = row.blockBytes :=
  (throughEngine_length ..).trans hB.symm

theorem blockSlice_ecbRun (ps : List (List Byte)) {j : Nat} (hj : j < ps.length) :
    blockSlice row (ecbRun row.width engine ps) j = throughEngine row.width engine ps[j] := by
  induction ps generalizing j with
  | nil => exact absurd hj (Nat.not_lt_zero j)
  | cons p ps ih =>
    have hlen := throughEngine_length_blockBytes hB engine p
    cases j with
    | zero => exact blockSlice_append_zero hlen _
    | succ j => exact (blockSlice_append_succ hlen _ j).trans (ih (Nat.lt_of_succ_lt_succ hj))

theorem blockSlice_cbcEncRun (prev : List Byte) (ps : List (List Byte)) {j : Nat} (hj : j < ps.length) :
    blockSlice row (cbcEncRun row.width engine prev ps) j = throughEngine row.width engine
      (xorBytes ps[j] (chainedFrom row prev (cbcEncRun row.width engine prev ps) j)) := by
  induction ps generalizing prev j with
  | nil => exact absurd hj (Nat.not_lt_zero j)
  | cons p ps ih =>
    have hlen := throughEngine_length_blockBytes hB engine (xorBytes p prev)
    cases j with
    | zero => exact blockSlice_append_zero hlen _
    | succ j =>
      rw [cbcEncRun, blockSlice_append_succ hlen, chainedFrom_append_succ hlen]
      exact ih _ (Nat.lt_of_succ_lt_succ hj)

/-- The chain of CBC decryption is its own operand, whose blocks must be whole for the XOR not to cut the result. -/
theorem cbcDecRun_spec {prev : List Byte} (hprev : prev.length = row.blockBytes) {cs : List (List Byte)}
    (hcs : ∀ c ∈ cs, c.length = row.blockBytes) :
    (cbcDecRun row.width engine prev cs).length = cs.flatten.length ∧
    ∀ {j : Nat} (hj : j < cs.length), blockSlice row (cbcDecRun row.width engine prev cs) j =
      xorBytes (throughEngine row.width engine cs[j]) (chainedFrom row prev cs.flatten j) := by
  induction cs generalizing prev with
  | nil => exact ⟨rfl, fun hj => absurd hj (Nat.not_lt_zero _)⟩
  | cons c cs ih =>
    obtain ⟨hc, hcs⟩ := List.forall_mem_cons.mp hcs
    obtain ⟨ihlen, ihblock⟩ := ih hc hcs
    have hlen : (xorBytes (throughEngine row.width engine c) prev).length = row.blockBytes := by
      rw [xorBytes_length, throughEngine_length_blockBytes hB, hprev, Nat.min_self]
    refine ⟨?_, fun {j} hj => ?_⟩
    · rw [cbcDecRun, List.length_append, ihlen, hlen, List.flatten_cons, List.length_append, hc]
    · cases j with
      | zero => exact blockSlice_append_zero hlen _
      | succ j =>
        rw [cbcDecRun, blockSlice_append_succ hlen, List.flatten_cons, chainedFrom_append_succ hc]
        exact ihblock (Nat.lt_of_succ_lt_succ hj)

end

section
variable {row : VariantRow} (hB : row.blockBytes = 2 * row.width.bytes) (rks : List Word)
include hB

theorem ecbRun_dec_enc {ps : List (List Byte)} (hps : ∀ p ∈ ps, p.length = row.blockBytes) :
    ecbRun row.width (decBlock row.width rks)
      (blocksOf row.blockBytes ps.length (ecbRun row.width (encBlock row.width rks) ps)) = ps.flatten := by
  induction ps with
  | nil => rfl
  | cons p ps ih =>
    obtain ⟨hp, hps⟩ := List.forall_mem_cons.mp hps
    rw [ecbRun, List.length_cons, blocksOf_append (throughEngine_length_blockBytes hB _ p), ecbRun, ih hps,
      throughEngine_dec_enc (hp.trans hB), List.flatten_cons]

theorem cbcRun_dec_enc {prev : List Byte} (hprev : prev.length = row.blockBytes) {ps : List (List Byte)}
    (hps : ∀ p ∈ ps, p.length = row.blockBytes) :
    cbcDecRun row.width (decBlock row.width rks) prev
      (blocksOf row.blockBytes ps.length (cbcEncRun row.width (encBlock row.width rks) prev ps)) = ps.flatten := by
  induction ps generalizing prev with
  | nil => rfl
  | cons p ps ih =>
    obtain ⟨hp, hps⟩ := List.forall_mem_cons.mp hps
    have hpp : p.length = prev.length := hp.trans hprev.symm
    have hc := throughEngine_length_blockBytes hB (encBlock row.width rks) (xorBytes p prev)
    have hx : (xorBytes p prev).length = 2 * row.width.bytes := by rw [xorBytes_length, ← hpp, Nat.min_self, hp, hB]
    rw [cbcEncRun, List.length_cons, blocksOf_append hc, cbcDecRun, ih hc hps, throughEngine_dec_enc hx,
      xorBytes_xorBytes_same hpp, List.flatten_cons]

end

end Sys2Proof.Machine

/-!
PROOFS, the mode drivers (44_mode_drivers.md): the results block by block, the round trips, and what a driver run on the
lines changes.
-/

namespace Sys2Proof.Machine

/-! ### The results on an aligned buffer -/

@[simp] theorem zeroBlock_length (row : VariantRow) : (zeroBlock row).length = row.blockBytes := List.length_replicate

theorem bufBlocks_of_length_eq {row : VariantRow} {out buf : List Byte} (h : out.length = buf.length) :
    bufBlocks row out = blocksOf row.blockBytes (bufBlocks row buf).length out := by
  rw [bufBlocks_length, bufBlocks, h]

section
variable {tag : Nat} {row : VariantRow} {buf : List Byte} (hrow : vtLookup tag = some row) (engine : Block → Block)
include hrow

theorem blockSlice_ecbRun_bufBlocks {j : Nat} (hj : j < buf.length / row.blockBytes) :
    blockSlice row (ecbRun row.width engine (bufBlocks row buf)) j =
      blockBytesOf row.width (engine (blockAt row.width buf (j * row.blockBytes))) := by
  have hB := (blockBytes_of_row hrow).1
  rw [blockSlice_ecbRun hB engine _ (hj.trans_eq (bufBlocks_length row buf).symm), bufBlocks_getElem, throughEngine,
    blockAt_blockSlice hB]

theorem blockSlice_cbcEncRun_bufBlocks {j : Nat} (hj : j < buf.length / row.blockBytes) :
    let out := cbcEncRun row.width engine (zeroBlock row) (bufBlocks row buf)
    blockSlice row out j = blockBytesOf row.width (engine
      (blockAt row.width (xorBytes (blockSlice row buf j) (chained row out j)) 0)) := by
  intro out
  rw [blockSlice_cbcEncRun (blockBytes_of_row hrow).1 engine _ _ (hj.trans_eq (bufBlocks_length row buf).symm),
    bufBlocks_getElem, throughEngine, chained_eq_chainedFrom]

variable (ha : Aligned row buf)
include ha

theorem blockSlice_cbcDecRun_bufBlocks {j : Nat} (hj : j < buf.length / row.blockBytes) :
    blockSlice row (cbcDecRun row.width engine (zeroBlock row) (bufBlocks row buf)) j =
      xorBytes (blockBytesOf row.width (engine (blockAt row.width (blockSlice row buf j) 0))) (chained row buf j) := by
  obtain ⟨-, hblock⟩ :=
    cbcDecRun_spec (blockBytes_of_row hrow).1 engine (zeroBlock_length row) (length_of_mem_bufBlocks ha)
  rw [hblock (hj.trans_eq (bufBlocks_length row buf).symm), bufBlocks_getElem, throughEngine, bufBlocks_flatten ha,
    chained_eq_chainedFrom]

/-- As many bytes out as in, for a run that answers one block for each. -/
theorem bufBlocks_length_mul : (bufBlocks row buf).length * (2 * row.width.bytes) = buf.length := by
  rw [bufBlocks_length, ← (blockBytes_of_row hrow).1, ← length_of_aligned ha]

theorem ecbRun_bufBlocks_length : (ecbRun row.width engine (bufBlocks row buf)).length = buf.length :=
  (ecbRun_length ..).trans (bufBlocks_length_mul hrow ha)

theorem cbcEncRun_bufBlocks_length :
    (cbcEncRun row.width engine (zeroBlock row) (bufBlocks row buf)).length = buf.length :=
  (cbcEncRun_length ..).trans (bufBlocks_length_mul hrow ha)

theorem cbcDecRun_bufBlocks_length :
    (cbcDecRun row.width engine (zeroBlock row) (bufBlocks row buf)).length = buf.length := by
  obtain ⟨hlen, -⟩ :=
    cbcDecRun_spec (blockBytes_of_row hrow).1 engine (zeroBlock_length row) (length_of_mem_bufBlocks ha)
  rw [hlen, bufBlocks_flatten ha]

end

/-- Settles O26: the decryption finds the blocks that the encryption wrote, and undoes them one by one. -/
theorem modeDriversRoundTrip : Obligations.ModeDriversRoundTrip := by
  intro tag row rks buf hrow ha
  have hB := (blockBytes_of_row hrow).1
  have hps := length_of_mem_bufBlocks ha
  constructor
  · calc ecbDecBytes row rks (ecbEncBytes row rks buf)
      _ = (bufBlocks row buf).flatten := by
        rw [ecbDecBytes, ecbEncBytes, bufBlocks_of_length_eq (ecbRun_bufBlocks_length hrow _ ha),
          ecbRun_dec_enc hB rks hps]
      _ = buf := bufBlocks_flatten ha
  · calc cbcDecBytes row rks (cbcEncBytes row rks buf)
      _ = (bufBlocks row buf).flatten := by
        rw [cbcDecBytes, cbcEncBytes, bufBlocks_of_length_eq (cbcEncRun_bufBlocks_length hrow _ ha),
          cbcRun_dec_enc hB rks (zeroBlock_length row) hps]
      _ = buf := bufBlocks_flatten ha

/-- Settles O28: plaintext block m is computed from ciphertext block m and the one before it. -/
theorem cbcCorruptionStaysLocal : Obligations.CbcCorruptionStaysLocal := by
  intro tag row rks c c' j hrow ha hlen hsame m hm hj hnext
  have ha' : Aligned row c' := by rwa [Aligned, hlen]
  have hchained : chained row c' m = chained row c m := by
    unfold chained
    split
    · rfl
    · exact hsame _ (by omega)
  rw [cbcDecBytes, cbcDecBytes, blockSlice_cbcDecRun_bufBlocks hrow _ ha hm,
    blockSlice_cbcDecRun_bufBlocks hrow _ ha' (by rwa [hlen]), hsame m hj, hchained]

/-! ### A driver run on the lines -/

/-- The result of any driver is on the result lines, and the registers but the index counters are as its `work` leaves
them. -/
theorem driverUop_effect_of_aligned {s : State} {row : VariantRow} (hrow : s.variantRow = some row)
    (ha : Aligned row s.ports.bytesIn) (out : VariantRow → List Word → List Byte → List Byte)
    (work : VariantRow → List Word → List Byte → Work → Work) :
    let t := driverUop out work s
    let wk := work row (s.roundKeys row.rounds) s.ports.bytesIn s.work
    t.ports = { s.ports with bytesOut := out row (s.roundKeys row.rounds) s.ports.bytesIn } ∧ UopFrame s t ∧
      t.work.prev = wk.prev ∧ t.work.a = wk.a ∧ t.work.tap = wk.tap := by
  rw [driverUop_of_aligned hrow ha]
  exact ⟨rfl, uopFrame_of_inner s _ _ _, rfl, rfl, rfl⟩

theorem driverUop_effect_of_unaligned {s : State} {row : VariantRow} (hrow : s.variantRow = some row)
    (ha : ¬ Aligned row s.ports.bytesIn) (out : VariantRow → List Word → List Byte → List Byte)
    (work : VariantRow → List Word → List Byte → Work → Work) :
    let t := driverUop out work s
    t.ports = { s.ports with bytesOut := freeBytes s.draws s.ports.bytesIn.length } ∧ UopFrame s t := by
  rw [driverUop_of_unaligned hrow ha]
  exact ⟨rfl, uopFrame_of_inner s _ _ _⟩

@[simp] theorem freeBytes_length (draw n : Nat) : (freeBytes draw n).length = n := by
  simp [freeBytes]

/-- Settles O25: the four drivers are `driverUop`, which answers as many free bytes. -/
theorem unalignedDriverBuffersComplete : Obligations.UnalignedDriverBuffersComplete := by
  intro i s row hi hrow ha
  have heffect := driverUop_effect_of_unaligned hrow ha
  rcases hi with rfl | rfl | rfl | rfl
  all_goals
    obtain ⟨hports, hframe⟩ := heffect _ _
    exact ⟨_, _, rfl, hports, freeBytes_length .., hframe⟩

/-- Only X and Y follow the engine. -/
theorem afterBlocks_kept (b : Block) (buf : List Byte) (wk : Work) :
    (wk.afterBlocks b buf).prev = wk.prev ∧ (wk.afterBlocks b buf).a = wk.a ∧ (wk.afterBlocks b buf).tap = wk.tap := by
  unfold Work.afterBlocks
  split <;> exact ⟨rfl, rfl, rfl⟩

/-- An ECB driver, in either direction: the result is a run over the blocks, and the engine's block stays in X and Y. -/
theorem ecbDriver_effect {s : State} {row : VariantRow} {engine : Block → Block}
    {out : VariantRow → List Word → List Byte → List Byte} {work : VariantRow → List Word → List Byte → Work → Work}
    (hrow : s.variantRow = some row) (ha : Aligned row s.ports.bytesIn)
    (hout : out row (s.roundKeys row.rounds) s.ports.bytesIn =
      ecbRun row.width engine (bufBlocks row s.ports.bytesIn))
    (hwork : ∃ b, work row (s.roundKeys row.rounds) s.ports.bytesIn s.work = s.work.afterBlocks b s.ports.bytesIn) :
    let t := driverUop out work s
    let buf := s.ports.bytesIn
    let result := out row (s.roundKeys row.rounds) buf
    t.ports = { s.ports with bytesOut := result } ∧ result.length = buf.length ∧
      (∀ j, j < buf.length / row.blockBytes → blockSlice row result j =
        blockBytesOf row.width (engine (blockAt row.width buf (j * row.blockBytes)))) ∧
      UopFrame s t ∧ WorkKeptButBlock s t := by
  obtain ⟨b, hwork⟩ := hwork
  obtain ⟨hports, hframe, hprev, hA, htap⟩ := driverUop_effect_of_aligned hrow ha out work
  obtain ⟨kprev, kA, ktap⟩ := afterBlocks_kept b s.ports.bytesIn s.work
  rw [hwork] at hprev hA htap
  refine ⟨hports, ?_, fun j hj => ?_, hframe, hprev.trans kprev, hA.trans kA, htap.trans ktap⟩
  · rw [hout, ecbRun_bufBlocks_length hrow engine ha]
  · rw [hout, blockSlice_ecbRun_bufBlocks hrow engine hj]

/-- Settles O21: an ECB driver with the encrypt pass. -/
theorem ecbEncryptsEachBlock : Obligations.EcbEncryptsEachBlock := by
  refine ⟨rfl, fun s row hrow ha => ?_⟩
  obtain ⟨hports, heffect⟩ := ecbDriver_effect (out := ecbEncBytes) (work := ecbEncWork) hrow ha rfl ⟨_, rfl⟩
  exact ⟨_, _, rfl, hports, rfl, heffect⟩

/-- Settles O22: an ECB driver with the decrypt pass. -/
theorem ecbDecryptsEachBlock : Obligations.EcbDecryptsEachBlock := by
  refine ⟨rfl, fun s row hrow ha => ?_⟩
  obtain ⟨hports, heffect⟩ := ecbDriver_effect (out := ecbDecBytes) (work := ecbDecWork) hrow ha rfl ⟨_, rfl⟩
  exact ⟨_, _, rfl, hports, rfl, heffect⟩

theorem getElem?_prevHolding {v : List Byte} {i : Nat} (hi : i < v.length) (h16 : i < 16) (old : Vector Byte 16) :
    (prevHolding v old)[i]? = v[i]? := by
  simp [prevHolding, hi, h16]

theorem chainEnd_length {row : VariantRow} {c : List Byte} (ha : Aligned row c) :
    (chainEnd row c).length = row.blockBytes := by
  unfold chainEnd
  split
  case isTrue => exact zeroBlock_length row
  case isFalse hne =>
    have hle : row.blockBytes ≤ c.length :=
      Nat.le_of_dvd (List.length_pos_iff.mpr hne) (Nat.dvd_of_mod_eq_zero ha)
    rw [lastBytes, List.length_drop, Nat.sub_sub_self hle]

/-- The significant bytes of `PREV` after a CBC run over the ciphertext `c`. -/
theorem getElem?_prevHolding_chainEnd {tag : Nat} {row : VariantRow} {c : List Byte} (hrow : vtLookup tag = some row)
    (ha : Aligned row c) (old : Vector Byte 16) {i : Nat} (hi : i < row.blockBytes) :
    (prevHolding (chainEnd row c) old)[i]? = (chained row c (c.length / row.blockBytes))[i]? := by
  obtain ⟨-, hB⟩ := blockBytes_of_row hrow
  rw [getElem?_prevHolding (hi.trans_eq (chainEnd_length ha).symm) (by omega), chainEnd_eq_chained ha (by omega)]

/-- A CBC driver, in either direction: `PREV` ends as the last block of the ciphertext `c`, and A and TAP are kept. -/
theorem cbcDriver_effect {s : State} {row : VariantRow} {c : List Byte}
    {work : VariantRow → List Word → List Byte → Work → Work} (hrow : s.variantRow = some row)
    (ha : Aligned row s.ports.bytesIn) (hlen : c.length = s.ports.bytesIn.length)
    (hwork : ∃ b, work row (s.roundKeys row.rounds) s.ports.bytesIn s.work =
      { s.work.afterBlocks b s.ports.bytesIn with prev := prevHolding (chainEnd row c) s.work.prev })
    (out : VariantRow → List Word → List Byte → List Byte) :
    let t := driverUop out work s
    let buf := s.ports.bytesIn
    t.ports = { s.ports with bytesOut := out row (s.roundKeys row.rounds) buf } ∧
      (∀ i, i < row.blockBytes → t.work.prev[i]? = (chained row c (buf.length / row.blockBytes))[i]?) ∧
      UopFrame s t ∧ t.work.a = s.work.a ∧ t.work.tap = s.work.tap := by
  obtain ⟨b, hwork⟩ := hwork
  obtain ⟨hports, hframe, hprev, hA, htap⟩ := driverUop_effect_of_aligned hrow ha out work
  obtain ⟨-, kA, ktap⟩ := afterBlocks_kept b s.ports.bytesIn s.work
  rw [hwork] at hprev hA htap
  have hc : Aligned row c := by rwa [Aligned, hlen]
  refine ⟨hports, fun i hi => ?_, hframe, hA.trans kA, htap.trans ktap⟩
  rw [hprev, ← hlen]
  exact getElem?_prevHolding_chainEnd hrow hc s.work.prev hi

/-- Settles O23: a CBC driver whose ciphertext is its result. -/
theorem cbcEncryptionChainsBlocks : Obligations.CbcEncryptionChainsBlocks := by
  refine ⟨rfl, fun s row hrow ha => ?_⟩
  have hlen := cbcEncRun_bufBlocks_length hrow (encBlock row.width (s.roundKeys row.rounds)) ha
  obtain ⟨hports, heffect⟩ := cbcDriver_effect (work := cbcEncWork) hrow ha hlen ⟨_, rfl⟩ cbcEncBytes
  exact ⟨_, _, rfl, hports, rfl, hlen, fun _ => blockSlice_cbcEncRun_bufBlocks hrow _, heffect⟩

/-- Settles O24: a CBC driver whose ciphertext is its operand. -/
theorem cbcDecryptionChainsBlocks : Obligations.CbcDecryptionChainsBlocks := by
  refine ⟨rfl, fun s row hrow ha => ?_⟩
  obtain ⟨hports, heffect⟩ := cbcDriver_effect (work := cbcDecWork) hrow ha rfl ⟨_, rfl⟩ cbcDecBytes
  exact ⟨_, _, rfl, hports, rfl, cbcDecRun_bufBlocks_length hrow _ ha,
    fun _ => blockSlice_cbcDecRun_bufBlocks hrow _ ha, heffect⟩

end Sys2Proof.Machine

/-!
PROOFS, the padder and the unpadder (45_padding.md): what padding appends, which sequences unpadding strips, and the
two operations run on the lines.
-/

namespace Sys2Proof.Machine

/-- The enable of the padder is bit 12 of CMD (30_encoding.md R80, R84). -/
theorem cmdPad_eq_ofBool (c : BitVec 32) : cmdPad c = BitVec.ofBool (c.getLsbD 12) := by
  ext i hi
  obtain rfl : i = 0 := by omega
  simp [cmdPad]

theorem ofBit_cmdPad_of_clear {c : BitVec 32} (h : c.getLsbD 12 = false) : Padding.ofBit (cmdPad c) = .none := by
  rw [cmdPad_eq_ofBool, h]
  rfl

theorem ofBit_cmdPad_of_set {c : BitVec 32} (h : c.getLsbD 12 = true) : Padding.ofBit (cmdPad c) = .pkcs7 := by
  rw [cmdPad_eq_ofBool, h]
  rfl

/-! ### What padding appends -/

section
variable {B : Nat} (hB : 0 < B) (n : Nat)
include hB

/-- A padding is never empty and at most one block (R200). -/
theorem padLength_bounds : 1 ≤ B - n % B ∧ B - n % B ≤ B := by
  have hmod := Nat.mod_lt n hB
  omega

/-- The padding fills the last block. -/
theorem add_padLength_mod : (n + (B - n % B)) % B = 0 := by
  have hmod := Nat.mod_lt n hB
  have hsplit : n + (B - n % B) = B * (n / B + 1) := by
    have hdiv := Nat.div_add_mod n B
    rw [Nat.mul_succ]
    omega
  rw [hsplit, Nat.mul_mod_right]

end

/-- The padding length fits one byte, as a block is shorter than 256 bytes. -/
theorem toNat_padByte {B : Nat} (h256 : B < 256) (n : Nat) : (BitVec.ofNat 8 (B - n % B)).toNat = B - n % B :=
  Nat.mod_eq_of_lt (by omega)

theorem padBytes_pkcs7_length (B : Nat) (x : List Byte) :
    (padBytes B .pkcs7 x).length = x.length + (B - x.length % B) := by
  rw [padBytes, List.length_append, List.length_replicate]

/-! ### Which sequences unpadding strips -/

/-- `p`, the last byte of `data`, is the length of a padding at its end (R201). -/
def WellFormedPadding (B : Nat) (data : List Byte) (p : Byte) : Prop :=
  p.toNat ≤ B ∧ p.toNat ≤ data.length ∧
    ∀ i, data.length - p.toNat ≤ i → i < data.length → data[i]? = some p

theorem all_drop_iff (data : List Byte) (m : Nat) (p : Byte) :
    (data.drop m).all (· == p) = true ↔ ∀ i, m ≤ i → i < data.length → data[i]? = some p := by
  simp only [List.all_eq_true, beq_iff_eq, List.forall_mem_iff_forall_getElem, List.length_drop, List.getElem_drop]
  constructor
  · intro h i hm hi
    rw [List.getElem?_eq_getElem hi, ← h (i - m) (by omega)]
    simp only [Nat.add_sub_cancel' hm]
  · intro h i hi
    exact Option.some.inj ((List.getElem?_eq_getElem _).symm.trans (h (m + i) (by omega) (by omega)))

section
variable {B : Nat} {data : List Byte} {p : Byte} (hlast : data.getLast? = some p)
include hlast

theorem unpadBytes_of_wellFormed (h : WellFormedPadding B data p) :
    unpadBytes B .pkcs7 data = .ok (data.take (data.length - p.toNat)) := by
  obtain ⟨hB, hlen, hbytes⟩ := h
  simp only [unpadBytes, hlast]
  rw [if_neg hB.not_gt, if_neg hlen.not_gt, if_pos ((all_drop_iff ..).mpr hbytes)]

/-- Unpadding is lenient: what is no padding stays (R201). -/
theorem unpadBytes_of_malformed (h : ¬ WellFormedPadding B data p) : unpadBytes B .pkcs7 data = .ok data := by
  simp only [unpadBytes, hlast]
  split_ifs with hB hlen hbytes
  · rfl
  · rfl
  · exact absurd ⟨Nat.not_lt.mp hB, Nat.not_lt.mp hlen, (all_drop_iff ..).mp hbytes⟩ h
  · rfl

end

/-- `n` bytes of value `n` after any sequence are a padding. -/
theorem wellFormedPadding_append_replicate {B n : Nat} {b : Byte} (hb : b.toNat = n) (hn : n ≤ B) (x : List Byte) :
    WellFormedPadding B (x ++ List.replicate n b) b := by
  subst hb
  have hlen : (x ++ List.replicate b.toNat b).length = x.length + b.toNat := by simp
  refine ⟨hn, by omega, fun i hi hlt => ?_⟩
  rw [List.getElem?_append_right (by omega), List.getElem?_replicate_of_lt (by omega)]

/-- Settles O31: what padding appends is a padding, and its last byte is its length. -/
theorem padUnpadRoundTrip : Obligations.PadUnpadRoundTrip := by
  intro B en x hB
  cases en with
  | none => rfl
  | pkcs7 =>
    have hpos : 0 < B := by omega
    obtain ⟨hp1, hpB⟩ := padLength_bounds hpos x.length
    have hbyte := toNat_padByte (B := B) (by omega) x.length
    have hlast : (padBytes B .pkcs7 x).getLast? = some (BitVec.ofNat 8 (B - x.length % B)) := by
      simp [padBytes, List.getLast?_replicate, Nat.ne_of_gt hp1]
    rw [unpadBytes_of_wellFormed hlast (wellFormedPadding_append_replicate hbyte hpB x), hbyte]
    simp [padBytes]

/-! ### The two operations on the lines -/

section
variable {s : State} {row : VariantRow} (hrow : s.variantRow = some row)
include hrow

theorem exec_pad_of_row : exec .pad s = .next { s with ports := { s.ports with
    bytesOut := padBytes row.blockBytes (Padding.ofBit (cmdPad s.cmd)) s.ports.bytesIn } } := by
  simp only [exec, execPad, hrow, State.padEnable]

theorem exec_unpad_of_error {code : ErrCode}
    (h : unpadBytes row.blockBytes (Padding.ofBit (cmdPad s.cmd)) s.ports.bytesIn = .error code) :
    exec .unpad s = .next (fail code s) := by
  simp only [exec, execUnpad, hrow, State.padEnable, h]

/-- An unpadded operand is on the result lines, and nothing else changes: what O30 calls `returns out`. -/
theorem exec_unpad_of_ok {en : Padding} {out : List Byte} (hen : Padding.ofBit (cmdPad s.cmd) = en)
    (h : unpadBytes row.blockBytes en s.ports.bytesIn = .ok out) :
    ∃ t, exec .unpad s = .next t ∧ t.ports = { s.ports with bytesOut := out } ∧ UopFrame s t ∧ t.work = s.work ∧
      unpadBytes row.blockBytes (Padding.ofBit (cmdPad s.cmd)) s.ports.bytesIn = .ok out := by
  subst hen
  refine ⟨{ s with ports := { s.ports with bytesOut := out } }, ?_, rfl, uopFrame_of_inner s s.work _ s.draws, rfl, h⟩
  simp only [exec, execUnpad, hrow, State.padEnable, h]

end

/-- Settles O29: the result is `padBytes`, whose padding fills the last block. -/
theorem padAppendsPkcs7 : Obligations.PadAppendsPkcs7 := by
  refine ⟨rfl, fun s row hrow => ⟨_, _, exec_pad_of_row hrow, rfl, rfl, fun hbit => ?_, fun hbit => ?_,
    uopFrame_of_inner s s.work _ s.draws, rfl⟩⟩
  · rw [ofBit_cmdPad_of_clear hbit, padBytes]
  · obtain ⟨-, hB⟩ := blockBytes_of_row hrow
    have hpos : 0 < row.blockBytes := by omega
    obtain ⟨hp1, hpB⟩ := padLength_bounds hpos s.ports.bytesIn.length
    rw [ofBit_cmdPad_of_set hbit, padBytes_pkcs7_length]
    exact ⟨rfl, hp1, hpB, toNat_padByte (by omega) _, add_padLength_mod hpos _, Nat.add_le_add_left hp1 _,
      Nat.add_le_add_left hpB _⟩

/-- Settles O30: the result is `unpadBytes`, by whether the operand is empty, padded or neither. -/
theorem unpadIsLenient : Obligations.UnpadIsLenient := by
  refine ⟨rfl, fun s row hrow => ⟨fun hbit => ?_, fun hbit => ?_⟩⟩
  · exact exec_unpad_of_ok hrow (ofBit_cmdPad_of_clear hbit) rfl
  · have hen := ofBit_cmdPad_of_set hbit
    refine ⟨fun hnil => ?_, fun p hlast => ⟨fun hwf => ?_, fun hwf => ?_⟩⟩
    · exact ⟨_, exec_unpad_of_error hrow (by rw [hen, hnil]; rfl), failedWith_fail _ s⟩
    · exact exec_unpad_of_ok hrow hen (unpadBytes_of_wellFormed hlast hwf)
    · exact exec_unpad_of_ok hrow hen (unpadBytes_of_malformed hlast hwf)

end Sys2Proof.Machine

/-!
PROOFS, the dispatcher (46_dispatcher.md R220): a write to CMD runs the command that the word encodes.
-/

namespace Sys2Proof.Machine

/-- Settles O5: a step with idle select lines, for a word that decodes and for one that does not. -/
theorem cmdWriteRunsDecodedCommand : Obligations.CmdWriteRunsDecodedCommand :=
  fun _ _ _ hu hh => ⟨fun _ => step_of_command hu hh, fun _ => step_of_illegalWord hu hh⟩

end Sys2Proof.Machine

/-!
PROOFS, the checks of the data commands (46_dispatcher.md R223, R224, 60_exceptions.md R253): what each answers, and a
VARIANT without a row (93_implementation_defined.md U8).
-/

namespace Sys2Proof.Machine

section
variable {s : State}

theorem dataChecks_of_noKey (hkey : s.keyValid = false) : dataChecks s = .error .noKey := by
  simp [dataChecks, hkey]

theorem dataChecks_of_overflow (hkey : s.keyValid = true) (hlen : s.ibufBytes < s.ilen.toNat) :
    dataChecks s = .error .lengthOverflow := by
  simp [dataChecks, hkey, hlen]

theorem dataChecks_of_noRow (hkey : s.keyValid = true) (hlen : s.ilen.toNat ≤ s.ibufBytes)
    (hrow : s.variantRow = none) : dataChecks s = .error .unimplementedVariant := by
  simp [dataChecks, hkey, hlen.not_gt, hrow]

theorem dataChecks_of_row {row : VariantRow} (hkey : s.keyValid = true) (hlen : s.ilen.toNat ≤ s.ibufBytes)
    (hrow : s.variantRow = some row) : dataChecks s = .ok row := by
  simp [dataChecks, hkey, hlen.not_gt, hrow]

section
variable {code : ErrCode} (hchecks : dataChecks s = .error code) (mode : Nat) (pad : Padding)
include hchecks

theorem encryptOutput_of_checks_error : encryptOutput mode pad s = .error code := by
  simp only [encryptOutput, hchecks]

theorem decryptOutput_of_checks_error : decryptOutput mode pad s = .error code := by
  simp only [decryptOutput, hchecks]

end

section
variable {mode : Nat} {pad : Padding} {result : Except ErrCode (List Byte)}

theorem exec_encrypt (h : encryptOutput mode pad s = result) :
    exec (.encrypt mode pad) s = .next (finishData result s) := h ▸ rfl

theorem exec_decrypt (h : decryptOutput mode pad s = result) :
    exec (.decrypt mode pad) s = .next (finishData result s) := h ▸ rfl

end

end

/-- Settles O36: the engine, the drivers, the padder and the unpadder look VARIANT up first, the data commands after
the two checks that the statement assumes passed. -/
theorem unknownVariantIsReported : Obligations.UnknownVariantIsReported := by
  intro i s hvariant hi
  have hrow : s.variantRow = none := (vtLookup_eq_none_iff _).mpr hvariant
  suffices hfail : exec i s = .next (fail .unimplementedVariant s) from ⟨_, hfail, failedWith_fail _ s⟩
  rcases hi with rfl | rfl | rfl | rfl | rfl | rfl | rfl | rfl | ⟨⟨mode, pad, rfl | rfl⟩, hkey, hlen⟩
  iterate 2 exact congrArg Host.Outcome.next (engineUop_of_none hrow)
  iterate 4 exact congrArg Host.Outcome.next (driverUop_of_none hrow)
  · simp only [exec, execPad, hrow]
  · simp only [exec, execUnpad, hrow]
  · exact exec_encrypt (encryptOutput_of_checks_error (dataChecks_of_noRow hkey hlen hrow) mode pad)
  · exact exec_decrypt (decryptOutput_of_checks_error (dataChecks_of_noRow hkey hlen hrow) mode pad)

end Sys2Proof.Machine

/-!
PROOFS, CONSTRUCT (46_dispatcher.md R222): its two errors, and the cipher object it installs.
-/

namespace Sys2Proof.Machine

theorem keyLength_eq (row : VariantRow) : keyLength row = row.keyWords * (row.width.bits / 8) := by
  rw [keyLength, bits_eq, Nat.mul_div_cancel_left _ (by decide)]

theorem execConstruct_of_noRow {var : Nat} (hrow : vtLookup var = none) (s : State) :
    execConstruct var s = .next (fail .unimplementedVariant s) := by
  simp only [execConstruct, constructChecks, hrow]

section
variable {var : Nat} {row : VariantRow} (hrow : vtLookup var = some row) {s : State}
include hrow

theorem execConstruct_of_length_ne (hlen : s.ilen.toNat ≠ keyLength row) :
    execConstruct var s = .next (fail .invalidKeyLength s) := by
  simp only [execConstruct, constructChecks, hrow, if_neg hlen]

theorem execConstruct_of_length_eq (hlen : s.ilen.toNat = keyLength row) : execConstruct var s =
    .next (succeed 0 ((s.installKey var (expandKey row s.operand).1).releaseWork)) := by
  simp only [execConstruct, constructChecks, hrow, if_pos hlen]

/-- The T entries of an installed schedule are the schedule (R22). -/
theorem roundKeys_installKey (kb : List Byte) :
    (s.installKey var (expandKey row kb).1).roundKeys row.rounds = (expandKey row kb).1 := by
  obtain ⟨hpos, hfile⟩ := rounds_of_row hrow
  have hsched := expandKey_length hpos kb
  rw [State.roundKeys, installKey_rk]
  exact hsched ▸ take_rkFileOf (hsched.trans_le hfile) s.draws

end

/-- The operand is what stands in IBUF[0 .. ILEN). -/
theorem operandIs_iff (p : List Byte) (s : State) : OperandIs p s ↔ s.operand = p := by
  simp only [OperandIs, List.ext_getElem_iff, State.operand_length]
  refine ⟨fun ⟨hlen, hbytes⟩ => ⟨hlen.symm, fun i _ hi => ?_⟩, fun ⟨hlen, hbytes⟩ => ⟨hlen.symm, fun i hi => ?_⟩⟩
  · simpa [State.operand, State.memRead, State.bytesAt] using hbytes i hi
  · simpa [State.operand, State.memRead, State.bytesAt] using hbytes i (by omega) hi

/-- Settles O37: the three ends of CONSTRUCT, by VAR and by the key length. -/
theorem constructBuildsCipherObject : Obligations.ConstructBuildsCipherObject := by
  refine ⟨by decide, fun var s => ⟨fun hvar => ?_, fun hvar => ?_⟩⟩
  · exact ⟨_, execConstruct_of_noRow ((vtLookup_eq_none_iff var).mpr hvar) s, failedWith_fail _ s⟩
  · obtain ⟨row, hrow⟩ := exists_row_of_le hvar
    refine ⟨row, hrow, ?_⟩
    rw [← keyLength_eq]
    refine ⟨fun hlen => ?_, fun hlen kb hkb => ?_⟩
    · exact ⟨_, execConstruct_of_length_ne hrow hlen, failedWith_fail _ s⟩
    · obtain rfl := (operandIs_iff kb s).mp hkb
      exact ⟨_, execConstruct_of_length_eq hrow hlen, ⟨rfl, rfl, rfl⟩, rfl, toNat_variant_of_row hrow,
        roundKeys_installKey hrow s.operand, bytesKept_of_mem rfl rfl, ⟨rfl, rfl, rfl, rfl, rfl, rfl, rfl⟩, rfl⟩

end Sys2Proof.Machine

/-!
PROOFS, the output of the data commands (46_dispatcher.md R223, R224): which driver a MODE selects, and what a command
with that driver computes.
-/

namespace Sys2Proof.Machine

/-- A mode driver in one direction: the bytes it answers for a row, its round keys and a buffer. -/
abbrev Driver := VariantRow → List Word → List Byte → List Byte

/-- The drivers a MODE selects, ENCRYPT's first; the MODE codes 2 and 3 select none (30_encoding.md R83). -/
def modeDrivers : Nat → Option (Driver × Driver)
  | 0 => some (ecbEncBytes, ecbDecBytes)
  | 1 => some (cbcEncBytes, cbcDecBytes)
  | _ => none

theorem modeDrivers_eq_none {mode : Nat} (h : 2 ≤ mode) : modeDrivers mode = none := by
  match mode, h with
  | _ + 2, _ => rfl

theorem exists_modeDrivers {mode : Nat} (h : mode ≤ 1) : ∃ enc dec, modeDrivers mode = some (enc, dec) := by
  match mode, h with
  | 0, _ | 1, _ => exact ⟨_, _, rfl⟩

theorem modeDrivers_cases {mode : Nat} {enc dec : Driver} (h : modeDrivers mode = some (enc, dec)) :
    (mode = 0 ∧ enc = ecbEncBytes ∧ dec = ecbDecBytes) ∨ (mode = 1 ∧ enc = cbcEncBytes ∧ dec = cbcDecBytes) := by
  match mode, h with
  | 0, rfl => exact .inl ⟨rfl, rfl, rfl⟩
  | 1, rfl => exact .inr ⟨rfl, rfl, rfl⟩

section
variable {mode tag : Nat} {enc dec : Driver} (hmode : modeDrivers mode = some (enc, dec)) {row : VariantRow}
  (hrow : vtLookup tag = some row) (rks : List Word) {buf : List Byte} (ha : Aligned row buf)
include hmode hrow ha

theorem encDriver_length : (enc row rks buf).length = buf.length := by
  rcases modeDrivers_cases hmode with ⟨-, rfl, -⟩ | ⟨-, rfl, -⟩
  · exact ecbRun_bufBlocks_length hrow _ ha
  · exact cbcEncRun_bufBlocks_length hrow _ ha

theorem decDriver_length : (dec row rks buf).length = buf.length := by
  rcases modeDrivers_cases hmode with ⟨-, -, rfl⟩ | ⟨-, -, rfl⟩
  · exact ecbRun_bufBlocks_length hrow _ ha
  · exact cbcDecRun_bufBlocks_length hrow _ ha

theorem decDriver_encDriver : dec row rks (enc row rks buf) = buf := by
  obtain ⟨hecb, hcbc⟩ := modeDriversRoundTrip tag row rks buf hrow ha
  rcases modeDrivers_cases hmode with ⟨-, rfl, rfl⟩ | ⟨-, rfl, rfl⟩
  · exact hecb
  · exact hcbc

end

section
variable {s : State} {row : VariantRow} (hchecks : dataChecks s = .ok row) {mode : Nat} {pad : Padding}
include hchecks

theorem encryptOutput_of_unaligned (hpad : pad = .none) (ha : s.ilen.toNat % row.blockBytes ≠ 0) :
    encryptOutput mode pad s = .error .unalignedInput := by
  simp only [encryptOutput, hchecks, if_pos (And.intro hpad ha)]

theorem decryptOutput_of_unaligned (ha : s.ilen.toNat % row.blockBytes ≠ 0) :
    decryptOutput mode pad s = .error .unalignedInput := by
  simp only [decryptOutput, hchecks, if_pos ha]

/-- MODE is looked at after the alignment (R253). -/
theorem encryptOutput_of_noDriver (ha : pad = .none → s.ilen.toNat % row.blockBytes = 0)
    (hmode : modeDrivers mode = none) : encryptOutput mode pad s = .error .unimplementedMode := by
  have haligned : ¬(pad = .none ∧ s.ilen.toNat % row.blockBytes ≠ 0) := fun h => h.2 (ha h.1)
  match mode, hmode with
  | _ + 2, _ => simp only [encryptOutput, hchecks, if_neg haligned]

theorem decryptOutput_of_noDriver (ha : s.ilen.toNat % row.blockBytes = 0)
    (hmode : modeDrivers mode = none) : decryptOutput mode pad s = .error .unimplementedMode := by
  match mode, hmode with
  | _ + 2, _ => simp only [decryptOutput, hchecks, if_neg (not_not_intro ha)]

variable {enc dec : Driver} (hmode : modeDrivers mode = some (enc, dec))
include hmode

theorem encryptOutput_of_driver (ha : pad = .none → s.ilen.toNat % row.blockBytes = 0) : encryptOutput mode pad s =
    .ok (enc row (s.roundKeys row.rounds) (padBytes row.blockBytes pad s.operand)) := by
  have haligned : ¬(pad = .none ∧ s.ilen.toNat % row.blockBytes ≠ 0) := fun h => h.2 (ha h.1)
  rcases modeDrivers_cases hmode with ⟨rfl, rfl, -⟩ | ⟨rfl, rfl, -⟩ <;>
    simp only [encryptOutput, hchecks, if_neg haligned]

theorem decryptOutput_of_driver (ha : s.ilen.toNat % row.blockBytes = 0) : decryptOutput mode pad s =
    unpadBytes row.blockBytes pad (dec row (s.roundKeys row.rounds) s.operand) := by
  rcases modeDrivers_cases hmode with ⟨rfl, -, rfl⟩ | ⟨rfl, -, rfl⟩ <;>
    simp only [decryptOutput, hchecks, if_neg (not_not_intro ha)]

end

theorem blockBytes_pos_of_row {tag : Nat} {row : VariantRow} (hrow : vtLookup tag = some row) : 0 < row.blockBytes := by
  obtain ⟨-, hB⟩ := blockBytes_of_row hrow
  omega

/-- Padded data is a whole number of blocks (R200), and without padding it is one when the alignment check passed. -/
theorem aligned_padBytes {row : VariantRow} (hB : 0 < row.blockBytes) {pad : Padding} {data : List Byte}
    (ha : pad = .none → data.length % row.blockBytes = 0) : Aligned row (padBytes row.blockBytes pad data) := by
  cases pad with
  | none => exact ha rfl
  | pkcs7 =>
    rw [Aligned, padBytes_pkcs7_length]
    exact add_padLength_mod hB _

/-- EMPTY_UNPAD is the only error of the unpadder (R201). -/
theorem exists_unpadBytes {pad : Padding} {data : List Byte} (h : pad = .none ∨ data ≠ []) (B : Nat) :
    ∃ out, unpadBytes B pad data = .ok out := by
  cases pad with
  | none => exact ⟨data, rfl⟩
  | pkcs7 =>
    have hne : data ≠ [] := h.resolve_left nofun
    have hlast := List.getLast?_eq_some_getLast hne
    by_cases hwf : WellFormedPadding B data (data.getLast hne)
    · exact ⟨_, unpadBytes_of_wellFormed hlast hwf⟩
    · exact ⟨_, unpadBytes_of_malformed hlast hwf⟩

/-- A data command with an output ends with it in OBUF, as long as OLEN can hold its length. -/
theorem finishData_ok_effect {out : List Byte} (hlen : out.length < 2 ^ 32) (s : State) :
    let t := finishData (.ok out) s
    EndedWith .ok out.length s t ∧ ResultIs out t ∧ DataCommandFrame out.length s t := by
  have holen : (BitVec.ofNat 32 out.length).toNat = out.length := Nat.mod_eq_of_lt hlen
  exact ⟨⟨rfl, holen, rfl⟩, ⟨holen, resultBytes_of_ok out s⟩, dataCommandFrame_of_ok out s⟩

/-- OLEN can hold the size of OBUF at a legal capacity. -/
theorem obufBytes_lt {s : State} (hcap : Config.CapLegal s.ibufBytes) : s.obufBytes < 2 ^ 32 := by
  obtain ⟨-, -, hmax⟩ := hcap
  rw [State.obufBytes]
  omega

end Sys2Proof.Machine

/-!
PROOFS, ENCRYPT and DECRYPT (46_dispatcher.md R223, R224, R226, R227): their ends in order, the round trip, and what
their result depends on.
-/

namespace Sys2Proof.Machine

/-- The length of a padded operand as R223 writes it. -/
theorem padBytes_length {B : Nat} (hB : 0 < B) (pad : Padding) (data : List Byte) :
    (padBytes B pad data).length =
      match pad with | .none => data.length | .pkcs7 => data.length + B - data.length % B := by
  cases pad with
  | none => rfl
  | pkcs7 => rw [padBytes_pkcs7_length, Nat.add_sub_assoc (Nat.mod_lt _ hB).le]

/-- Settles O38: the errors in the order of the checks, then the driver of the MODE over the padded operand. -/
theorem encryptWritesCiphertext : Obligations.EncryptWritesCiphertext := by
  refine ⟨by decide, fun mode pad s hcap => ⟨fun hkey => ?_, fun hkey hlen => ?_, fun row hkey hlen hrow =>
    ⟨fun hpad ha => ?_, fun ha => ⟨fun hmode => ?_, fun p hp => ?_⟩⟩⟩⟩
  · exact ⟨_, exec_encrypt (encryptOutput_of_checks_error (dataChecks_of_noKey hkey) ..), failedWith_fail _ s⟩
  · exact ⟨_, exec_encrypt (encryptOutput_of_checks_error (dataChecks_of_overflow hkey hlen) ..), failedWith_fail _ s⟩
  all_goals have hchecks := dataChecks_of_row hkey hlen hrow
  · exact ⟨_, exec_encrypt (encryptOutput_of_unaligned hchecks hpad ha), failedWith_fail _ s⟩
  · exact ⟨_, exec_encrypt (encryptOutput_of_noDriver hchecks ha (modeDrivers_eq_none hmode)), failedWith_fail _ s⟩
  · intro d rks writes
    obtain rfl := (operandIs_iff p s).mp hp
    have hB := blockBytes_pos_of_row hrow
    have hwrites {enc dec : Driver} (hmode : modeDrivers mode = some (enc, dec)) : writes (enc row rks d) := by
      have hout := encryptOutput_of_driver hchecks hmode ha
      have hlen := encDriver_length hmode hrow rks (aligned_padBytes hB (data := s.operand) (by rwa [s.operand_length]))
      obtain ⟨hend, hres, hframe⟩ :=
        finishData_ok_effect ((encryptOutput_length_le hout).trans_lt (obufBytes_lt hcap)) s
      refine ⟨_, exec_encrypt hout, hend, hres, hframe, hlen.trans ?_⟩
      rw [← s.operand_length]
      exact padBytes_length hB pad s.operand
    exact ⟨fun h => hwrites (congrArg modeDrivers h), fun h => hwrites (congrArg modeDrivers h)⟩

/-- Settles O39: the errors in the order of the checks, then the driver of the MODE over the operand, unpadded. -/
theorem decryptWritesPlaintext : Obligations.DecryptWritesPlaintext := by
  refine ⟨by decide, fun mode pad s hcap => ⟨fun hkey => ?_, fun hkey hlen => ?_, fun row hkey hlen hrow =>
    ⟨fun ha => ?_, fun ha => ⟨fun hmode => ?_, fun hmode hpad hempty => ?_, fun c hc => ?_⟩⟩⟩⟩
  · exact ⟨_, exec_decrypt (decryptOutput_of_checks_error (dataChecks_of_noKey hkey) ..), failedWith_fail _ s⟩
  · exact ⟨_, exec_decrypt (decryptOutput_of_checks_error (dataChecks_of_overflow hkey hlen) ..), failedWith_fail _ s⟩
  all_goals have hchecks := dataChecks_of_row hkey hlen hrow
  · exact ⟨_, exec_decrypt (decryptOutput_of_unaligned hchecks ha), failedWith_fail _ s⟩
  · exact ⟨_, exec_decrypt (decryptOutput_of_noDriver hchecks ha (modeDrivers_eq_none hmode)), failedWith_fail _ s⟩
  all_goals have haligned : Aligned row s.operand := by rwa [Aligned, s.operand_length]
  · obtain ⟨enc, dec, hmode⟩ := exists_modeDrivers hmode
    have hnil : dec row (s.roundKeys row.rounds) s.operand = [] := List.length_eq_zero_iff.mp
      ((decDriver_length hmode hrow _ haligned).trans (s.operand_length.trans hempty))
    have hout := decryptOutput_of_driver (pad := pad) hchecks hmode ha
    rw [hnil, hpad] at hout
    exact ⟨_, hpad ▸ exec_decrypt hout, failedWith_fail _ s⟩
  · intro rks writes
    obtain rfl := (operandIs_iff c s).mp hc
    have hwrites {enc dec : Driver} (hmode : modeDrivers mode = some (enc, dec)) : writes (dec row rks s.operand) := by
      intro hne
      have hlen := (decDriver_length hmode hrow rks haligned).trans s.operand_length
      obtain ⟨out, hunpad⟩ := exists_unpadBytes
        (hne.imp_right fun h0 => List.ne_nil_of_length_pos (hlen.trans_gt (Nat.pos_of_ne_zero h0))) row.blockBytes
      have hout := (decryptOutput_of_driver hchecks hmode ha).trans hunpad
      obtain ⟨hend, hres, hframe⟩ :=
        finishData_ok_effect ((decryptOutput_length_le hout).trans_lt (obufBytes_lt hcap)) s
      refine ⟨_, out, exec_decrypt hout, hunpad, hend, hres, hframe, ?_⟩
      rintro rfl
      cases hunpad
      exact ⟨rfl, hlen⟩
    exact ⟨fun h => hwrites (congrArg modeDrivers h), fun h => hwrites (congrArg modeDrivers h)⟩

/-- An ENCRYPT that ends with ERR = OK has passed its checks. -/
theorem encrypt_checks_of_ok {s t : State} {row : VariantRow} {mode : Nat} {pad : Padding} (hkey : s.keyValid = true)
    (hrow : s.variantRow = some row) (ht : exec (.encrypt mode pad) s = .next t) (hok : t.err = .ok) :
    dataChecks s = .ok row ∧ (pad = .none → s.ilen.toNat % row.blockBytes = 0) := by
  have hno {code : ErrCode} (hcode : code ≠ .ok) : encryptOutput mode pad s ≠ .error code := by
    intro hout
    cases ht.symm.trans (exec_encrypt hout)
    exact hcode hok
  have hlen : s.ilen.toNat ≤ s.ibufBytes := by
    by_contra hgt
    exact hno (by decide) (encryptOutput_of_checks_error (dataChecks_of_overflow hkey (Nat.not_le.mp hgt)) ..)
  have hchecks := dataChecks_of_row hkey hlen hrow
  refine ⟨hchecks, fun hpad => ?_⟩
  by_contra ha
  exact hno (by decide) (encryptOutput_of_unaligned hchecks hpad ha)

/-- R226 on the outputs: with the ciphertext as its operand and the same round keys, DECRYPT computes the operand of
ENCRYPT, since the decrypt driver undoes the encrypt driver and the unpadder the padder. -/
theorem decryptOutput_of_ciphertext {s u : State} {row : VariantRow} {mode : Nat} {pad : Padding} {enc dec : Driver}
    (hs : dataChecks s = .ok row) (hu : dataChecks u = .ok row) (hmode : modeDrivers mode = some (enc, dec))
    (ha : pad = .none → s.ilen.toNat % row.blockBytes = 0)
    (hkeys : u.roundKeys row.rounds = s.roundKeys row.rounds) (hout : encryptOutput mode pad s = .ok u.operand) :
    decryptOutput mode pad u = .ok s.operand := by
  obtain ⟨hrow, -⟩ := dataChecks_ok hs
  have hpadded : Aligned row (padBytes row.blockBytes pad s.operand) :=
    aligned_padBytes (blockBytes_pos_of_row hrow) (by rwa [s.operand_length])
  have hcipher : enc row (s.roundKeys row.rounds) (padBytes row.blockBytes pad s.operand) = u.operand :=
    Except.ok.inj ((encryptOutput_of_driver hs hmode ha).symm.trans hout)
  have haligned : u.ilen.toNat % row.blockBytes = 0 := by
    rwa [← u.operand_length, ← hcipher, encDriver_length hmode hrow _ hpadded]
  rw [decryptOutput_of_driver hu hmode haligned, ← hcipher, hkeys, decDriver_encDriver hmode hrow _ hpadded]
  exact padUnpadRoundTrip row.blockBytes pad s.operand (blockBytes_of_row hrow).2

/-- Settles O40: the copied ciphertext is the operand of a DECRYPT that passes its checks. -/
theorem decryptUndoesEncrypt : Obligations.DecryptUndoesEncrypt := by
  intro mode pad s t u p hcap hkey hvariant hmode hp ht hok hfits ⟨hvalid, hsameVariant, hrk⟩ hbufcap hilen hcopied
  obtain ⟨row, hrow⟩ := exists_row_of_le hvariant
  obtain ⟨enc, dec, hmode⟩ := exists_modeDrivers hmode
  obtain rfl := (operandIs_iff p s).mp hp
  obtain ⟨hchecks, ha⟩ := encrypt_checks_of_ok hkey hrow ht hok
  obtain ⟨cipher, hout⟩ : ∃ cipher, encryptOutput mode pad s = .ok cipher :=
    ⟨_, encryptOutput_of_driver hchecks hmode ha⟩
  obtain rfl : finishData (.ok cipher) s = t := Host.Outcome.next.inj ((exec_encrypt hout).symm.trans ht)
  obtain ⟨-, ⟨holen, hcipher⟩, -⟩ :=
    finishData_ok_effect ((encryptOutput_length_le hout).trans_lt (obufBytes_lt hcap)) s
  have hlen : cipher.length = u.ilen.toNat := holen.symm.trans (congrArg BitVec.toNat hilen.symm)
  obtain rfl : u.operand = cipher := (operandIs_iff cipher u).mp
    ⟨hlen, fun i hi => (hcopied i (hi.trans_eq holen.symm)).trans (hcipher i hi)⟩
  have huchecks : dataChecks u = .ok row :=
    dataChecks_of_row (hvalid.trans hkey) (by rwa [State.ibufBytes, hilen, hbufcap])
      (by rwa [State.variantRow, hsameVariant])
  have hkeys : u.roundKeys row.rounds = s.roundKeys row.rounds := congrArg (fun rk => rk.toList.take row.rounds) hrk
  have hplain := decryptOutput_of_ciphertext hchecks huchecks hmode ha hkeys hout
  obtain ⟨hend, hres, -⟩ := finishData_ok_effect (s.operand_length.trans_lt s.ilen.isLt) u
  exact ⟨_, exec_decrypt hplain, hend, hres⟩

/-- Settles O41: both commands answer `finishData` of an output that is the same in the two states. -/
theorem dataCommandsDependOnKeyAndInputOnly : Obligations.DataCommandsDependOnKeyAndInputOnly := by
  intro i mode pad s s' hi hkey hilen hcap hbytes
  have hoperand : s'.operand = s.operand := by
    rw [State.operand, State.operand, hilen]
    exact List.map_congr_left fun j hj => hbytes j (List.mem_range.mp hj)
  have hsame : SameInput s s' := ⟨hkey, hilen, hcap, hoperand⟩
  obtain ⟨result, hexec, hexec'⟩ : ∃ result, exec i s = .next (finishData result s) ∧
      exec i s' = .next (finishData result s') := by
    rcases hi with rfl | rfl
    · exact ⟨_, rfl, exec_encrypt (encryptOutput_of_sameInput hsame mode pad)⟩
    · exact ⟨_, rfl, exec_decrypt (decryptOutput_of_sameInput hsame mode pad)⟩
  refine ⟨_, _, hexec, hexec', keyKept_finishData result s, keyKept_finishData result s', ?_⟩
  cases result with
  | error code => exact ⟨rfl, rfl, fun _ _ j hj => absurd hj (Nat.not_lt_zero j)⟩
  | ok out =>
    refine ⟨rfl, rfl, fun _ _ j hj => ?_⟩
    have hj : j < out.length := hj.trans_le ((BitVec.toNat_ofNat ..).trans_le (Nat.mod_le ..))
    exact (resultBytes_of_ok out s' j hj).trans (resultBytes_of_ok out s j hj).symm

end Sys2Proof.Machine

/-!
PROOFS, how a command ends (60_exceptions.md R252, R256, 93_implementation_defined.md U6): either it failed and changed
no more than `fail` does, or it succeeded; both add the code to the error history, and no other input does.
-/

namespace Sys2Proof.Machine

/-- `t` is `s` after a command: one that failed changed nothing but its outcome, one that did not recorded OK. -/
def CommandEnded (s t : State) : Prop := FailedWith t.err s t ∨ (t.err = .ok ∧ t.errLog = .ok :: s.errLog)

theorem commandEnded_fail (code : ErrCode) (s : State) : CommandEnded s (fail code s) := .inl (failedWith_fail code s)

theorem CommandEnded.errLog_eq {s t : State} (h : CommandEnded s t) : t.errLog = t.err :: s.errLog := by
  rcases h with hfailed | ⟨hok, hlog⟩
  · exact congrArg State.errLog hfailed
  · rw [hlog, hok]

theorem commandEnded_finishData (result : Except ErrCode (List Byte)) (s : State) :
    CommandEnded s (finishData result s) := by
  cases result with
  | error code => exact commandEnded_fail code s
  | ok out => exact .inr ⟨rfl, rfl⟩

theorem commandEnded_execConstruct {var : Nat} {s t : State} (ht : execConstruct var s = .next t) :
    CommandEnded s t := by
  rcases execConstruct_cases var s with ⟨code, -, e⟩ | ⟨row, -, -, e⟩ <;> cases ht.symm.trans e
  · exact commandEnded_fail code s
  · exact .inr ⟨rfl, rfl⟩

theorem commandEnded_exec_of_decodeCmd {s t : State} {c : BitVec 32} {i : Instr} (hi : decode (.cmd32 c) = .ok i)
    (ht : exec i s = .next t) : CommandEnded s t := by
  rcases decodeCmd_is_command hi with ⟨var, rfl⟩ | ⟨mode, pad, rfl⟩ | ⟨mode, pad, rfl⟩
  · exact commandEnded_execConstruct ht
  · cases ht
    exact commandEnded_finishData _ s
  · cases ht
    exact commandEnded_finishData _ s

/-- A write to CMD ends as a command does, whether or not its word is legal. -/
theorem commandEnded_of_step_cmdWrite {s t : State} {v : BusWord} {rest : List HostInput} (hu : s.uop = none)
    (hh : s.host = .write 32 0 v :: rest) (ht : step s = .next t) :
    CommandEnded { s with host := rest, cmd := v } t := by
  cases hd : decode (.cmd32 v) with
  | ok i => exact commandEnded_exec_of_decodeCmd hd ((step_of_command hu hh hd).symm.trans ht)
  | error e =>
    cases ht.symm.trans (step_of_illegalWord hu hh hd)
    exact commandEnded_fail _ _

/-- Settles O43: a command that did not end with OK is one that failed. -/
theorem failedCommandChangesNothingElse : Obligations.FailedCommandChangesNothingElse := by
  intro s t v rest hu hh ht herr
  rcases commandEnded_of_step_cmdWrite hu hh ht with hfailed | ⟨hok, -⟩
  · exact hfailed
  · exact absurd hok herr

theorem hostWrite_errLog (off : Nat) (v : BusWord) (s : State) : (hostWrite off v s).errLog = s.errLog := by
  rcases hostWrite_cases off v s with ⟨-, e⟩ | ⟨-, -, e⟩ | ⟨-, -, e⟩ <;> rw [e]

/-- Settles O44: a command records its code, and of the cases of `step_cases` that are no write to CMD none touches
the history. -/
theorem errorHistoryRecordsEveryCommand : Obligations.ErrorHistoryRecordsEveryCommand := by
  intro s t hu ht
  refine ⟨fun ⟨v, rest, hh⟩ => (commandEnded_of_step_cmdWrite hu hh ht).errLog_eq, fun hno => ?_⟩
  rcases step_cases hu ht with ⟨-, rfl⟩ | ⟨rest, -, rfl⟩ | ⟨off, rest, -, -, rfl⟩ |
    ⟨off, v, rest, -, -, -, rfl⟩ | ⟨v, rest, -, hh, -, -⟩ | ⟨v, rest, -, hh, -, -⟩
  · rfl
  · rfl
  · rfl
  · exact hostWrite_errLog off v { s with host := rest }
  · exact absurd hh (hno v rest)
  · exact absurd hh (hno v rest)

/-- Settles O8: a step with idle select lines and no input. -/
theorem idleCoreHoldsItsState : Obligations.IdleCoreHoldsItsState := fun _ => step_of_noInput

end Sys2Proof.Machine

/-!
PROOFS, `rst` and the time until the first CONSTRUCT that succeeds (70_reset_and_hazards.md R280, R281).
-/

namespace Sys2Proof.Machine

/-- Settles O54: the first check of a data command is for a key, and of the two steps that can change the cipher object
(R23) `rst` leaves none. -/
theorem noKeyUntilConstructSucceeds : Obligations.NoKeyUntilConstructSucceeds := by
  refine ⟨rfl, assertReset_keyValid, fun s mode pad hkey => ⟨?_, ?_⟩, fun s t hu hkey ht hvalid => ?_⟩
  · exact ⟨_, exec_encrypt (encryptOutput_of_checks_error (dataChecks_of_noKey hkey) ..), failedWith_fail _ s⟩
  · exact ⟨_, exec_decrypt (decryptOutput_of_checks_error (dataChecks_of_noKey hkey) ..), failedWith_fail _ s⟩
  · have hchanged : ¬ KeyKept s t := fun ⟨hkept, _⟩ => by simp [hkept, hkey] at hvalid
    rcases onlyConstructOrResetChangesTheKey s t hu ht hchanged with ⟨rest, hh⟩ | ⟨hok, -, hconstruct⟩
    · cases ht.symm.trans (step_of_rst hu hh)
      exact absurd hvalid Bool.false_ne_true
    · exact ⟨hok, hconstruct⟩

/-- Settles O52: field by field, from what `assertReset` leaves. -/
theorem rstRestoresResetValues : Obligations.RstRestoresResetValues := fun _ _ hu hh =>
  ⟨_, step_of_rst hu hh, rfl, statusWord_eq_zero rfl rfl, rfl, rfl, rfl, rfl, rfl, rfl, rfl, fun _ => rfl, rfl, rfl⟩

end Sys2Proof.Machine
